-- ==== Sys2Proof/Word.lean ====
section
/-! DEFINITION. The value types of the MAC core (10_state.md R28) and the pairs its limb primitives return.
Every value is unsigned; bit 0 is the least significant bit (00_scope.md R13). -/

namespace Sys2Proof

/-- Word64: "a 64-bit unsigned integer, the atomic unit of computation" (R28). -/
abbrev Word64 := BitVec 64

/-- Word128 (R28), kept in its native representation; `Limbs 64` is its pair view. -/
abbrev Word128 := BitVec 128

/-- Word256 (R28), also the width of the operand and result ports (R29, `BUS_W`). -/
abbrev Word256 := BitVec 256

/-- A pair of limbs of `W` bits, low limb first (10_state.md R28, 20_memory.md R41). -/
structure Limbs (W : Nat) where
  low : BitVec W
  high : BitVec W
deriving DecidableEq, Repr

/-- What an addition returns: the wrapped sum `s` and the carry bit `k` of weight `2^W` (40_limb_primitives.md R82). -/
structure CarrySum (W : Nat) where
  s : BitVec W
  k : Bool
deriving DecidableEq, Repr

/-- What a subtraction returns: the wrapped difference `d` and the borrow bit `w` of weight `2^W` (R85). -/
structure BorrowDiff (W : Nat) where
  d : BitVec W
  w : Bool
deriving DecidableEq, Repr

end Sys2Proof
end

