-- ==== Sys2Proof/Syntax.lean ====
section
/-! DEFINITION. The operations, the raw command on the ports, and the driver's listing syntax
(30_encoding.md R60, R61, R70, R71; 10_state.md R29). -/

namespace Sys2Proof

/-- The operand width of an operation (30_encoding.md R61). -/
inductive Width where
  | w64 | w128 | w256
deriving DecidableEq, Repr

/-- The variant of an operation: schoolbook (`.S`) or Karatsuba (`.K`) (00_scope.md R3, R19). -/
inductive Variant where
  | schoolbook | karatsuba
deriving DecidableEq, Repr

/-- A command as it stands on the ports (30_encoding.md R60, 10_state.md R29): only `op` is an encoded field;
`a`, `b`, `c` are plain unsigned values on the shared 256-bit ports. -/
structure Command where
  op : BitVec 3
  a : Word256
  b : Word256
  c : Word256
deriving DecidableEq, Repr

/-- The six operations of opcode_table.json with their operands `a`, `b` (factors) and `c` (accumulate term), in the
typed reading of the interface, where the ignored port bits do not exist (10_state.md R29, 30_encoding.md R64). -/
inductive Instr where
  | madd64S (a b c : Word64)
  | madd64K (a b c : Word64)
  | madd128S (a b c : Word128)
  | madd128K (a b c : Word128)
  | madd256S (a b c : Word256)
  | madd256K (a b c : Word256)
deriving DecidableEq, Repr

/-- The operand width of an operation (R61). -/
def Instr.width : Instr → Width
  | .madd64S _ _ _ => .w64
  | .madd64K _ _ _ => .w64
  | .madd128S _ _ _ => .w128
  | .madd128K _ _ _ => .w128
  | .madd256S _ _ _ => .w256
  | .madd256K _ _ _ => .w256

/-- The variant of an operation (R61). -/
def Instr.variant : Instr → Variant
  | .madd64S _ _ _ => .schoolbook
  | .madd64K _ _ _ => .karatsuba
  | .madd128S _ _ _ => .schoolbook
  | .madd128K _ _ _ => .karatsuba
  | .madd256S _ _ _ => .schoolbook
  | .madd256K _ _ _ => .karatsuba

/-- The mnemonic of an operation, as opcode_table.json spells it (R61, R70). -/
def Instr.mnemonic : Instr → String
  | .madd64S _ _ _ => "MADD64.S"
  | .madd64K _ _ _ => "MADD64.K"
  | .madd128S _ _ _ => "MADD128.S"
  | .madd128K _ _ _ => "MADD128.K"
  | .madd256S _ _ _ => "MADD256.S"
  | .madd256K _ _ _ => "MADD256.K"

/-- The first factor `a` as an unsigned integer (00_scope.md R13, R15). -/
def Instr.factorA : Instr → Nat
  | .madd64S a _ _ => a.toNat
  | .madd64K a _ _ => a.toNat
  | .madd128S a _ _ => a.toNat
  | .madd128K a _ _ => a.toNat
  | .madd256S a _ _ => a.toNat
  | .madd256K a _ _ => a.toNat

/-- The second factor `b` as an unsigned integer (00_scope.md R13, R15). -/
def Instr.factorB : Instr → Nat
  | .madd64S _ b _ => b.toNat
  | .madd64K _ b _ => b.toNat
  | .madd128S _ b _ => b.toNat
  | .madd128K _ b _ => b.toNat
  | .madd256S _ b _ => b.toNat
  | .madd256K _ b _ => b.toNat

/-- The accumulate term `c` as an unsigned integer (00_scope.md R13, R15). -/
def Instr.addend : Instr → Nat
  | .madd64S _ _ c => c.toNat
  | .madd64K _ _ c => c.toNat
  | .madd128S _ _ c => c.toNat
  | .madd128K _ _ c => c.toNat
  | .madd256S _ _ c => c.toNat
  | .madd256K _ _ c => c.toNat

/-- The same operation with its two factors exchanged (40_limb_primitives.md R99, law 4). -/
def Instr.swapFactors : Instr → Instr
  | .madd64S a b c => .madd64S b a c
  | .madd64K a b c => .madd64K b a c
  | .madd128S a b c => .madd128S b a c
  | .madd128K a b c => .madd128K b a c
  | .madd256S a b c => .madd256S b a c
  | .madd256K a b c => .madd256K b a c

/-- The same operands given to the other variant at the same width (40_limb_primitives.md R96). -/
def Instr.otherVariant : Instr → Instr
  | .madd64S a b c => .madd64K a b c
  | .madd64K a b c => .madd64S a b c
  | .madd128S a b c => .madd128K a b c
  | .madd128K a b c => .madd128S a b c
  | .madd256S a b c => .madd256K a b c
  | .madd256K a b c => .madd256S a b c

/-- An operand of a listing line (30_encoding.md R70): a literal, the name of an earlier result, or the low or high half
of one. Names are numbers here: which letters spell a name has no meaning in the spec. -/
inductive Source where
  | lit (v : Nat)
  | res (name : Nat)
  | lo (name : Nat)
  | hi (name : Nat)
deriving DecidableEq, Repr

/-- A line of a driver listing (30_encoding.md R70, R71). -/
inductive Line where
  /-- `MADD<W>.<V> r, a, b, c` (R70). -/
  | madd (w : Width) (v : Variant) (r : Nat) (a b c : Source)
  /-- The pseudo-operation `MUL<W>.<V> r, a, b` (R71). -/
  | mul (w : Width) (v : Variant) (r : Nat) (a b : Source)
  /-- `<op ...> r, a, b, c`: a request by raw `op` value, as 95_test_vectors.md program 4 writes one. It is no listing
  syntax of R70 and a driver must never issue a reserved one (60_exceptions.md R162). -/
  | raw (op : BitVec 3) (r : Nat) (a b c : Source)
deriving DecidableEq, Repr

/-- A listing: a finite sequence of lines, issued in order (30_encoding.md R70). -/
abbrev Listing := List Line

end Sys2Proof
end

