-- ==== Sys2Proof/Config.lean ====
section
/-! DEFINITION. The implementation parameters: those the spec fixes (00_scope.md R11) as constants, those it leaves open
(R12) as named constants. -/

namespace Sys2Proof

/-- Operand widths: 64, 128, 256 bits (00_scope.md R11). -/
def Width.bits : Width → Nat
  | .w64 => 64
  | .w128 => 128
  | .w256 => 256

/-- Result widths `OUT(W)`: 128, 256, 256 bits (00_scope.md R11, 40_limb_primitives.md R94). -/
def Width.outBits : Width → Nat
  | .w64 => 128
  | .w128 => 256
  | .w256 => 256

namespace Config

/-- `BUS_W`: the width of the shared operand and result ports (00_scope.md R12, decision D3). -/
def busWidth : Nat := 256

/-- `SUBMUL`: the variant a wider operation uses for its half-width multiplications, fixed to the caller's own
(40_limb_primitives.md R98, decision D7; log 10). -/
def subMul (caller : Variant) : Variant := caller

/-- `LATENCY`: clock cycles from command to result, OPEN, one natural number per `op` value of an implementation
(70_reset_and_hazards.md R187, decision D4; log 9). No rule depends on it, so no definition of this model reads it. -/
opaque latency : BitVec 3 → Nat

end Config

end Sys2Proof
end

