-- ==== Sys2Proof/Machine/Operands.lean ====
section
/-! DEFINITION. Fields and limbs: the sub-fields of `op`, the operand and result fields of the shared ports, and the limb
representation (30_encoding.md R60, R61, R64, R65, R68; 40_limb_primitives.md R80, R81). -/

namespace Sys2Proof.Machine

/-- The sub-field `op.wsel = op[2:1]` (30_encoding.md R60). -/
def wselField (op : BitVec 3) : BitVec 2 := op.extractLsb' 1 2

/-- The sub-field `op.alg = op[0]` (30_encoding.md R60). -/
def algField (op : BitVec 3) : Bool := op.getLsbD 0

/-- `op.wsel`: 00 is 64, 01 is 128, 10 is 256, 11 is reserved (30_encoding.md R61, R66). -/
def opWidth (op : BitVec 3) : Option Width :=
  match (wselField op).toNat with
  | 0 => some .w64
  | 1 => some .w128
  | 2 => some .w256
  | _ => none

/-- `op.alg`: 0 is schoolbook, 1 is Karatsuba (30_encoding.md R61). -/
def opVariant (op : BitVec 3) : Variant := if algField op then .karatsuba else .schoolbook

/-- `op.wsel` of a width (30_encoding.md R61). -/
def wselOf : Width → BitVec 2
  | .w64 => 0#2
  | .w128 => 1#2
  | .w256 => 2#2

/-- `op.alg` of a variant (30_encoding.md R61). -/
def algOf : Variant → Bool
  | .schoolbook => false
  | .karatsuba => true

/-- The `op` value of a width and a variant: `op.wsel ‖ op.alg` (30_encoding.md R60, R61). -/
def opSelect (w : Width) (v : Variant) : BitVec 3 := wselOf w ++ BitVec.ofBool (algOf v)

/-- The operand field of an operation of width `W`: bits `[W-1:0]` of the port; the bits above are ignored
(30_encoding.md R64). -/
def operandField (W : Nat) (port : Word256) : BitVec W := port.extractLsb' 0 W

/-- An operand of `W` bits laid on a 256-bit port, the bits above it zero. -/
def operandOnPort {W : Nat} (v : BitVec W) : Word256 := v.setWidth 256

/-- The result field: the result on the low bits of `r`, zero above it (30_encoding.md R65). -/
def resultField {N : Nat} (r : BitVec N) : Word256 := r.setWidth 256

/-- `SPLIT_W(v)`: `low = v[W-1:0]`, `high = v[2W-1:W]` (40_limb_primitives.md R80). -/
def split (W : Nat) (v : BitVec (2 * W)) : Limbs W := ⟨v.extractLsb' 0 W, v.extractLsb' W W⟩

/-- `JOIN_W(v0, v1) = v1 ‖ v0`, built as a shift and an OR, which is exact because the two fields do not overlap
(40_limb_primitives.md R81, 70_reset_and_hazards.md R184). -/
def join (W : Nat) (p : Limbs W) : BitVec (2 * W) := (p.high.setWidth (2 * W) <<< W) ||| p.low.setWidth (2 * W)

/-- The four 64-bit limbs of a 256-bit value, least significant first (20_memory.md R41). -/
def limbs64 (v : Word256) : List Word64 :=
  [v.extractLsb' 0 64, v.extractLsb' 64 64, v.extractLsb' 128 64, v.extractLsb' 192 64]

/-- The value of a list of limbs of width `W`, least significant first (10_state.md R28, 40_limb_primitives.md R84). -/
def limbsValue {W : Nat} : List (BitVec W) → Nat
  | [] => 0
  | x :: xs => x.toNat + 2 ^ W * limbsValue xs

end Sys2Proof.Machine
end

