-- ==== Sys2Proof/WellFormed.lean ====
section
/-! DEFINITION. What the driver may write: a command whose `op` selects an operation and whose operands fit its width, and
a listing that keeps the syntax of 30_encoding.md R70. An `Instr` needs no check: every bit pattern of each operand width
is a legal value (10_state.md R28). -/

namespace Sys2Proof

/-- A command of the typed reading: its `op` is not reserved (30_encoding.md R66) and no operand has a bit above the
operation's width (R70, "at most W bits"; on the ports such bits would be ignored, R64). -/
def Command.wellFormed (k : Command) : Bool :=
  match Machine.opWidth k.op with
  | none => false
  | some w => decide (k.a.toNat < 2 ^ w.bits) && decide (k.b.toNat < 2 ^ w.bits) && decide (k.c.toNat < 2 ^ w.bits)

/-- The names bound so far, each with the operand width of the operation that gave it, newest first. -/
abbrev Bound := List (Nat × Width)

/-- An operand of a line of operand width `W` bits: a literal of at most `W` bits, or an earlier result or half of one
that has at most `W` bits (30_encoding.md R70). What becomes of a wider one is the model's choice (log 11). -/
def Source.wellFormed (bound : Bound) (W : Nat) : Source → Bool
  | .lit v => decide (v < 2 ^ W)
  | .res n => match bound.lookup n with
    | none => false
    | some w => decide (w.outBits ≤ W)
  | .lo n => match bound.lookup n with
    | none => false
    | some w => decide (w.outBits / 2 ≤ W)
  | .hi n => match bound.lookup n with
    | none => false
    | some w => decide (w.outBits / 2 ≤ W)

/-- A line is well-formed when each operand is; a raw request is never listing syntax (30_encoding.md R70,
60_exceptions.md R162). -/
def Line.wellFormed (bound : Bound) : Line → Bool
  | .madd w _ _ a b c => a.wellFormed bound w.bits && b.wellFormed bound w.bits && c.wellFormed bound w.bits
  | .mul w _ _ a b => a.wellFormed bound w.bits && b.wellFormed bound w.bits
  | .raw _ _ _ _ _ => false

/-- The names bound after a line. -/
def Line.bind (bound : Bound) : Line → Bound
  | .madd w _ r _ _ _ => (r, w) :: bound
  | .mul w _ r _ _ => (r, w) :: bound
  | .raw _ _ _ _ _ => bound

/-- A listing is well-formed when each line is, over the names bound by the lines before it (30_encoding.md R70). -/
def Listing.wellFormed (bound : Bound) : Listing → Bool
  | [] => true
  | l :: ls => l.wellFormed bound && Listing.wellFormed (l.bind bound) ls

end Sys2Proof
end

