-- ==== Sys2Proof/Decode.lean ====
section
/-! DEFINITION. The decoder from the command on the ports to an operation, the encoder back, and opcode_table.json's rows
(30_encoding.md R60 to R67). The hardware has no byte form of a command (20_memory.md R42): a command is
`(op, a, b, c)` on the ports, and `decode` is total on it. -/

namespace Sys2Proof

/-- Why a command decodes to no operation. -/
inductive DecodeReject where
  /-- `op` is 110 or 111, that is `op.wsel = 11` (30_encoding.md R66). -/
  | reservedOp (op : BitVec 3)
deriving DecidableEq, Repr

/-- The operation a command asks for: `op` selects width and variant (30_encoding.md R61), the operands are the low bits
of the ports (R64); a reserved `op` is rejected before anything else is looked at (60_exceptions.md R164). -/
def decode : Command → Except DecodeReject Instr
  | ⟨op, a, b, c⟩ =>
    match Machine.opWidth op, Machine.opVariant op with
    | none, _ => .error (.reservedOp op)
    | some .w64, .schoolbook =>
      .ok (.madd64S (Machine.operandField 64 a) (Machine.operandField 64 b) (Machine.operandField 64 c))
    | some .w64, .karatsuba =>
      .ok (.madd64K (Machine.operandField 64 a) (Machine.operandField 64 b) (Machine.operandField 64 c))
    | some .w128, .schoolbook =>
      .ok (.madd128S (Machine.operandField 128 a) (Machine.operandField 128 b) (Machine.operandField 128 c))
    | some .w128, .karatsuba =>
      .ok (.madd128K (Machine.operandField 128 a) (Machine.operandField 128 b) (Machine.operandField 128 c))
    | some .w256, .schoolbook =>
      .ok (.madd256S (Machine.operandField 256 a) (Machine.operandField 256 b) (Machine.operandField 256 c))
    | some .w256, .karatsuba =>
      .ok (.madd256K (Machine.operandField 256 a) (Machine.operandField 256 b) (Machine.operandField 256 c))

/-- The command that asks for an operation: its `op` (30_encoding.md R61) and its operands on the low bits of the ports,
the bits above them zero. -/
def encode : Instr → Command
  | .madd64S a b c =>
    ⟨Machine.opSelect .w64 .schoolbook, Machine.operandOnPort a, Machine.operandOnPort b, Machine.operandOnPort c⟩
  | .madd64K a b c =>
    ⟨Machine.opSelect .w64 .karatsuba, Machine.operandOnPort a, Machine.operandOnPort b, Machine.operandOnPort c⟩
  | .madd128S a b c =>
    ⟨Machine.opSelect .w128 .schoolbook, Machine.operandOnPort a, Machine.operandOnPort b, Machine.operandOnPort c⟩
  | .madd128K a b c =>
    ⟨Machine.opSelect .w128 .karatsuba, Machine.operandOnPort a, Machine.operandOnPort b, Machine.operandOnPort c⟩
  | .madd256S a b c =>
    ⟨Machine.opSelect .w256 .schoolbook, Machine.operandOnPort a, Machine.operandOnPort b, Machine.operandOnPort c⟩
  | .madd256K a b c =>
    ⟨Machine.opSelect .w256 .karatsuba, Machine.operandOnPort a, Machine.operandOnPort b, Machine.operandOnPort c⟩

/-- A row of opcode_table.json (30_encoding.md R62): `pattern` is its "match", over `op[2:0]`. -/
structure OpcodeRow where
  mnemonic : String
  pattern : BitVec 3
  mask : BitVec 3
deriving DecidableEq, Repr

/-- opcode_table.json, row by row (30_encoding.md R61, R62). -/
def opcodeTable : List OpcodeRow :=
  [⟨"MADD64.S", 0b000#3, 0b111#3⟩, ⟨"MADD64.K", 0b001#3, 0b111#3⟩,
   ⟨"MADD128.S", 0b010#3, 0b111#3⟩, ⟨"MADD128.K", 0b011#3, 0b111#3⟩,
   ⟨"MADD256.S", 0b100#3, 0b111#3⟩, ⟨"MADD256.K", 0b101#3, 0b111#3⟩]

/-- A row selects an `op` value when they agree under the row's mask (30_encoding.md R62). -/
def OpcodeRow.selects (row : OpcodeRow) (op : BitVec 3) : Bool := (op &&& row.mask) == row.pattern

/-- The command that a table word stands for: the table gives a row the three bits `op[2:0]` and the operands none, so
`op` is the word's low three bits, every bit at or above `nbits` is zero and the operands are zero (log 4). -/
def commandOfTableWord (nbits w : Nat) : Command := ⟨BitVec.ofNat 3 (w % 2 ^ nbits), 0#256, 0#256, 0#256⟩

/-- The instruction the decoder reads from a table word. -/
def decodeTableWord (nbits w : Nat) : Option Instr :=
  match decode (commandOfTableWord nbits w) with
  | .ok i => some i
  | .error _ => none

end Sys2Proof
end

