-- ==== Sys2Proof/Machine/Flags.lean ====
section
/-! DEFINITION. The limb_adder: every carry and borrow computation of the block (40_limb_primitives.md R82 to R87).
No operation writes a flag (10_state.md R23): each carry and borrow is a wire consumed inside the same operation. -/

namespace Sys2Proof.Machine

/-- A carry or borrow bit as a value of `W` bits. -/
def bitValue (W : Nat) (k : Bool) : BitVec W := (BitVec.ofBool k).setWidth W

/-- `ADD_W`: the wrapped sum, and the carry recovered by the unsigned comparison `s < x`
(40_limb_primitives.md R82, 70_reset_and_hazards.md R183). -/
def addW {W : Nat} (x y : BitVec W) : CarrySum W := ⟨x + y, (x + y).ult x⟩

/-- `ADC_W`: two `ADD_W` in a row, the carries OR-ed (40_limb_primitives.md R83). -/
def adcW {W : Nat} (x y : BitVec W) (cin : Bool) : CarrySum W :=
  let s1 := addW x y
  let s2 := addW s1.s (bitValue W cin)
  ⟨s2.s, s1.k || s2.k⟩

/-- The carry chain from a carry in, over the limb pairs of two operands, least significant limb first. -/
def adcChain {W : Nat} (cin : Bool) : List (BitVec W × BitVec W) → List (BitVec W) × Bool
  | [] => ([], cin)
  | (x, y) :: rest =>
    let t := adcW x y cin
    let r := adcChain t.k rest
    (t.s :: r.1, r.2)

/-- `ADDN_W`: the multi-precision carry chain (40_limb_primitives.md R84). The operands come as the list of their limb
pairs, so that both have the same number of limbs. -/
def addN {W : Nat} (xy : List (BitVec W × BitVec W)) : List (BitVec W) × Bool := adcChain false xy

/-- `SUB_W`: the wrapped difference, and the borrow by the unsigned comparison `x < y`
(40_limb_primitives.md R85, decision D8). -/
def subW {W : Nat} (x y : BitVec W) : BorrowDiff W := ⟨x - y, x.ult y⟩

/-- `SBB_W`: two `SUB_W` in a row, the borrows OR-ed (40_limb_primitives.md R86). -/
def sbbW {W : Nat} (x y : BitVec W) (win : Bool) : BorrowDiff W :=
  let d1 := subW x y
  let d2 := subW d1.d (bitValue W win)
  ⟨d2.d, d1.w || d2.w⟩

/-- The borrow chain from a borrow in, least significant limb first. -/
def sbbChain {W : Nat} (win : Bool) : List (BitVec W × BitVec W) → List (BitVec W) × Bool
  | [] => ([], win)
  | (x, y) :: rest =>
    let t := sbbW x y win
    let r := sbbChain t.w rest
    (t.d :: r.1, r.2)

/-- `SUBN_W`: the multi-precision borrow chain (40_limb_primitives.md R87). -/
def subN {W : Nat} (xy : List (BitVec W × BitVec W)) : List (BitVec W) × Bool := sbbChain false xy

/-- The exact sum of two limbs in `W+1` bits: the carry joined above the wrapped sum, `sa = ca ‖ sa_lo`
(42_karatsuba.md R130 to R132). -/
def wideSum {W : Nat} (x y : BitVec W) : BitVec (W + 1) := BitVec.cons (addW x y).k (addW x y).s

end Sys2Proof.Machine
end

