-- ==== Sys2Proof/Machine/State.lean ====
section
/-! DEFINITION. State, fault and refusal reasons, reset. The block itself holds no state (10_state.md R20 to R27): what a
state records is the interface, the commands issued and the results returned (R29, R30; 70_reset_and_hazards.md R188). -/

namespace Sys2Proof.Machine

/-- One result the block returned: the operation with the operands it was computed from, and the value driven on the port
`r` (10_state.md R29, R30). -/
structure Returned where
  instr : Instr
  r : Word256
deriving DecidableEq, Repr

/-- The record of the interface. Both fields are the model's own (logs 1 and 2): the spec gives the block no register,
flag, memory, counter or mode (10_state.md R21 to R27). -/
structure State where
  /-- The commands in progress, oldest first, each with the operand values sampled at its issue
  (20_memory.md R47, 70_reset_and_hazards.md R185). -/
  issued : List Command
  /-- The results returned so far, in the order of issue (70_reset_and_hazards.md R188). -/
  returned : List Returned
deriving DecidableEq, Repr

/-- Why the machine stops with a fault: no reason exists. "A model's fault type for the six operations has no
constructor" (60_exceptions.md R160). Safe: nothing can be concluded from it. -/
inductive Fault where
deriving DecidableEq, Repr

/-- Why a command gets no meaning. -/
inductive Refusal where
  /-- Raised by `step` for a command whose `op` is 110 or 111 (30_encoding.md R66, 60_exceptions.md R162). Safe: the
  hardware's behaviour is not specified and no result is claimed. -/
  | reservedOp (op : BitVec 3)
  /-- Raised by an arm of `exec` whose instruction has no meaning yet: none in this model. Safe. -/
  | notModelled (mnemonic : String)
deriving DecidableEq, Repr

/-- After reset no command is issued and no result is returned: "its initial state is the empty record"
(70_reset_and_hazards.md R180, 10_state.md R31; logs 1 and 2). -/
def State.reset : State := { issued := [], returned := [] }

end Sys2Proof.Machine
end

