-- ==== Sys2Proof/Machine/Ops.lean ====
section
/-! DEFINITION. The sub-blocks that both multipliers share (40_limb_primitives.md R88 to R93) and the named operations on
State. There is no memory, no register and no trap to operate on (20_memory.md R40, 10_state.md R21,
60_exceptions.md R160, R165, R166). -/

namespace Sys2Proof.Machine

/-! ### Multipliers, middle term, recomposition, accumulation -/

/-- `MUL_n`: the base multiplier, both factors widened to `2n` bits, where the product cannot wrap
(40_limb_primitives.md R88). -/
def mulN {n : Nat} (x y : BitVec n) : BitVec (2 * n) := x.setWidth (2 * n) * y.setWidth (2 * n)

/-- `WMUL_W`: the exact product of two factors of `W+1` bits from a `W`-bit multiplier `M`, by splitting off the top bit
of each (40_limb_primitives.md R89, decision D6). -/
def wmul (W : Nat) (M : BitVec W → BitVec W → BitVec (2 * W)) (sa sb : BitVec (W + 1)) : BitVec (2 * W + 2) :=
  let ca := sa.getLsbD W
  let cb := sb.getLsbD W
  let sal := sa.extractLsb' 0 W
  let sbl := sb.extractLsb' 0 W
  (M sal sbl).setWidth (2 * W + 2)
    + (((if ca then sbl else 0#W).setWidth (2 * W + 2) + (if cb then sal else 0#W).setWidth (2 * W + 2)) <<< W)
    + (bitValue (2 * W + 2) (ca && cb) <<< (2 * W))

/-- `MIDSUM_W`: the schoolbook middle term `(mid, mc)` (40_limb_primitives.md R90). -/
def midSum (W : Nat) (p01 p10 : BitVec (2 * W)) : CarrySum (2 * W) := addW p01 p10

/-- `MIDSUB_W`: the Karatsuba middle term `m - z0 - z2` as `(mid, mc)`, the borrows of the two `2W`-bit subtractions
carried into the two bits of `m` above bit `2W-1` (40_limb_primitives.md R91, 90_conflicts.md C4). `mh - w1 - w2` is 0 or
1 for every middle term that arises; `mc` is its low bit (log 12). -/
def midSub (W : Nat) (m : BitVec (2 * W + 2)) (z0 z2 : BitVec (2 * W)) : CarrySum (2 * W) :=
  let mh := m.extractLsb' (2 * W) 2
  let ml := m.extractLsb' 0 (2 * W)
  let d1 := subW ml z0
  let d2 := subW d1.d z2
  ⟨d2.d, (mh - bitValue 2 d1.w - bitValue 2 d2.w).getLsbD 0⟩

/-- `RECOMB_W`: the product of two `2W`-bit values from its three parts, by addition with the carries `k1` and `mc` in
their places (40_limb_primitives.md R92, 90_conflicts.md C3). -/
def recomb (W : Nat) (z0 : BitVec (2 * W)) (mid : CarrySum (2 * W)) (z2 : BitVec (2 * W)) : Limbs (2 * W) :=
  let t := addW z0 ((mid.s.extractLsb' 0 W).setWidth (2 * W) <<< W)
  ⟨t.s, z2 + (mid.s.extractLsb' W W).setWidth (2 * W) + (bitValue (2 * W) mid.k <<< W) + bitValue (2 * W) t.k⟩

/-- `ACC_N`, the mac_accumulator: `c` added into the low half, the carry into the high half
(40_limb_primitives.md R93). -/
def acc {N : Nat} (p : Limbs N) (c : BitVec N) : Limbs N :=
  let t := addW p.low c
  ⟨t.s, p.high + bitValue N t.k⟩

/-! ### Operations on State -/

/-- The driver issues a command: it joins the commands in progress as the youngest (70_reset_and_hazards.md R188). -/
def State.issue (s : State) (k : Command) : State := { s with issued := s.issued ++ [k] }

/-- The block takes the oldest command in progress, if there is one (10_state.md R30, 60_exceptions.md R171). -/
def State.take (s : State) : Option (Command × State) :=
  match s.issued with
  | [] => none
  | k :: rest => some (k, { s with issued := rest })

/-- The block returns the value `r` of an operation (10_state.md R30). -/
def State.returnResult (s : State) (i : Instr) (r : Word256) : State := { s with returned := s.returned ++ [⟨i, r⟩] }

/-- A table word placed as the oldest command, the one the next step takes (log 1). -/
def State.placeTableWord (s : State) (nbits w : Nat) : State :=
  { s with issued := commandOfTableWord nbits w :: s.issued }

end Sys2Proof.Machine
end

