-- ==== Sys2Proof/Machine/Datapath.lean ====
section
/-! DEFINITION. The six datapaths (41_schoolbook.md R110 to R113, 42_karatsuba.md R130 to R133), each width built from the
next lower one by plain function composition (10_state.md R21, 60_exceptions.md R169). -/

namespace Sys2Proof.Machine

/-- The schoolbook product of two `2W`-bit values from four cross products (41_schoolbook.md R111, R112);
`M` is the half-width multiplication `M_W` (40_limb_primitives.md R98). -/
def schoolbookProduct (W : Nat) (M : BitVec W → BitVec W → BitVec (2 * W)) (a b : BitVec (2 * W)) : Limbs (2 * W) :=
  let a' := split W a
  let b' := split W b
  let p00 := M a'.low b'.low
  let p01 := M a'.low b'.high
  let p10 := M a'.high b'.low
  let p11 := M a'.high b'.high
  recomb W p00 (midSum W p01 p10) p11

/-- The Karatsuba product of two `2W`-bit values from three half-width products, the middle term exact
(42_karatsuba.md R130 to R132, 70_reset_and_hazards.md R182). -/
def karatsubaProduct (W : Nat) (M : BitVec W → BitVec W → BitVec (2 * W)) (a b : BitVec (2 * W)) : Limbs (2 * W) :=
  let a' := split W a
  let b' := split W b
  let z0 := M a'.low b'.low
  let z2 := M a'.high b'.high
  let m := wmul W M (wideSum a'.low a'.high) (wideSum b'.low b'.high)
  recomb W z0 (midSub W m z0 z2) z2

/-! ### Width 64 -/

/-- The datapath of `MADD64.S` (41_schoolbook.md R110): `MUL_64`, then `ACC_64` on the limb pair. -/
def madd64S (a b c : Word64) : Word128 := join 64 (acc (split 64 (mulN a b)) c)

/-- The datapath of `MADD64.K` (42_karatsuba.md R130), over `MUL_32`. -/
def madd64K (a b c : Word64) : Word128 := join 64 (acc (karatsubaProduct 32 mulN a b) c)

/-- `M_64`: the 64-bit multiplication that a wider operation delegates, with nothing to accumulate
(40_limb_primitives.md R98, 30_encoding.md R71). -/
def delegate64 : Variant → Word64 → Word64 → Word128
  | .schoolbook, x, y => madd64S x y 0#64
  | .karatsuba, x, y => madd64K x y 0#64

/-! ### Width 128 -/

/-- The schoolbook datapath at width 128, with the delegated multiplication of variant `sub`
(41_schoolbook.md R111). -/
def madd128SWith (sub : Variant) (a b c : Word128) : Word256 :=
  join 128 (acc (schoolbookProduct 64 (delegate64 sub) a b) c)

/-- The Karatsuba datapath at width 128, with the delegated multiplication of variant `sub`
(42_karatsuba.md R131). -/
def madd128KWith (sub : Variant) (a b c : Word128) : Word256 :=
  join 128 (acc (karatsubaProduct 64 (delegate64 sub) a b) c)

/-- The datapath of `MADD128.S`, `SUBMUL` at its value (41_schoolbook.md R111, R113). -/
def madd128S (a b c : Word128) : Word256 := madd128SWith (Config.subMul .schoolbook) a b c

/-- The datapath of `MADD128.K`, `SUBMUL` at its value (42_karatsuba.md R131, R133). -/
def madd128K (a b c : Word128) : Word256 := madd128KWith (Config.subMul .karatsuba) a b c

/-- `M_128`: the 128-bit multiplication that a 256-bit operation delegates (40_limb_primitives.md R98). -/
def delegate128 : Variant → Word128 → Word128 → Word256
  | .schoolbook, x, y => madd128S x y 0#128
  | .karatsuba, x, y => madd128K x y 0#128

/-! ### Width 256: the same scheme one level up, the high half discarded -/

/-- The schoolbook datapath at width 256; `high2` is discarded (41_schoolbook.md R112). -/
def madd256SWith (sub : Variant) (a b c : Word256) : Word256 :=
  (acc (schoolbookProduct 128 (delegate128 sub) a b) c).low

/-- The Karatsuba datapath at width 256; `high2` is discarded (42_karatsuba.md R132). -/
def madd256KWith (sub : Variant) (a b c : Word256) : Word256 :=
  (acc (karatsubaProduct 128 (delegate128 sub) a b) c).low

/-- The datapath of `MADD256.S`, `SUBMUL` at its value (41_schoolbook.md R112, R113). -/
def madd256S (a b c : Word256) : Word256 := madd256SWith (Config.subMul .schoolbook) a b c

/-- The datapath of `MADD256.K`, `SUBMUL` at its value (42_karatsuba.md R132, R133). -/
def madd256K (a b c : Word256) : Word256 := madd256KWith (Config.subMul .karatsuba) a b c

/-! ### The reduced forms at width 256 (decision D20): only what reaches `r` -/

/-- The reduced schoolbook form of 41_schoolbook.md R112: no `p11`, no `mc`, no high half. -/
def madd256SReduced (sub : Variant) (a b c : Word256) : Word256 :=
  let a' := split 128 a
  let b' := split 128 b
  let c' := split 128 c
  let p00 := split 128 (delegate128 sub a'.low b'.low)
  let p01 := split 128 (delegate128 sub a'.low b'.high)
  let p10 := split 128 (delegate128 sub a'.high b'.low)
  let t := addW p00.low c'.low
  join 128 ⟨t.s, p00.high + p01.low + p10.low + c'.high + bitValue 128 t.k⟩

/-- The reduced Karatsuba form of 42_karatsuba.md R132: the middle term only mod `2^128`. -/
def madd256KReduced (sub : Variant) (a b c : Word256) : Word256 :=
  let a' := split 128 a
  let b' := split 128 b
  let c' := split 128 c
  let z0 := delegate128 sub a'.low b'.low
  let z2 := delegate128 sub a'.high b'.high
  let m := wmul 128 (delegate128 sub) (wideSum a'.low a'.high) (wideSum b'.low b'.high)
  let z1lo : Word128 := m.extractLsb' 0 128 - (split 128 z0).low - (split 128 z2).low
  let t1 := addW (split 128 z0).high z1lo
  let t := addW (split 128 z0).low c'.low
  join 128 ⟨t.s, t1.s + c'.high + bitValue 128 t.k⟩

end Sys2Proof.Machine
end

