-- ==== Sys2Proof/Machine/Karatsuba.lean ====
section
/-! DEFINITION. The meanings of the Karatsuba family (42_karatsuba.md). Each returns its result and nothing else: no flag
is written and nothing is raised (10_state.md R23, 60_exceptions.md R160). -/

namespace Sys2Proof.Machine

/-- `MADD64.K r, a, b, c` (42_karatsuba.md R130). -/
def execMadd64K (a b c : Word64) (s : State) : Host.Outcome State Fault Refusal :=
  .next (s.returnResult (.madd64K a b c) (resultField (madd64K a b c)))

/-- `MADD128.K r, a, b, c` (42_karatsuba.md R131). -/
def execMadd128K (a b c : Word128) (s : State) : Host.Outcome State Fault Refusal :=
  .next (s.returnResult (.madd128K a b c) (resultField (madd128K a b c)))

/-- `MADD256.K r, a, b, c` (42_karatsuba.md R132). -/
def execMadd256K (a b c : Word256) (s : State) : Host.Outcome State Fault Refusal :=
  .next (s.returnResult (.madd256K a b c) (resultField (madd256K a b c)))

end Sys2Proof.Machine
end

