-- ==== Sys2Proof/Machine/Schoolbook.lean ====
section
/-! DEFINITION. The meanings of the schoolbook family (41_schoolbook.md). Each returns its result and nothing else: no flag
is written and nothing is raised (10_state.md R23, 60_exceptions.md R160). -/

namespace Sys2Proof.Machine

/-- `MADD64.S r, a, b, c` (41_schoolbook.md R110). -/
def execMadd64S (a b c : Word64) (s : State) : Host.Outcome State Fault Refusal :=
  .next (s.returnResult (.madd64S a b c) (resultField (madd64S a b c)))

/-- `MADD128.S r, a, b, c` (41_schoolbook.md R111). -/
def execMadd128S (a b c : Word128) (s : State) : Host.Outcome State Fault Refusal :=
  .next (s.returnResult (.madd128S a b c) (resultField (madd128S a b c)))

/-- `MADD256.S r, a, b, c` (41_schoolbook.md R112). -/
def execMadd256S (a b c : Word256) (s : State) : Host.Outcome State Fault Refusal :=
  .next (s.returnResult (.madd256S a b c) (resultField (madd256S a b c)))

end Sys2Proof.Machine
end

