-- ==== Sys2Proof/Machine/Dispatch.lean ====
section
/-! DEFINITION. One arm per operation of opcode_table.json. -/

namespace Sys2Proof.Machine

def exec (i : Instr) (s : State) : Host.Outcome State Fault Refusal :=
  match i with
  | .madd64S a b c => Sys2Proof.Machine.execMadd64S a b c s
  | .madd64K a b c => Sys2Proof.Machine.execMadd64K a b c s
  | .madd128S a b c => Sys2Proof.Machine.execMadd128S a b c s
  | .madd128K a b c => Sys2Proof.Machine.execMadd128K a b c s
  | .madd256S a b c => Sys2Proof.Machine.execMadd256S a b c s
  | .madd256K a b c => Sys2Proof.Machine.execMadd256K a b c s

end Sys2Proof.Machine
end

