-- ==== Sys2Proof/Machine/Step.lean ====
section
/-! DEFINITION. One step: take the oldest command in progress, return its result (10_state.md R30). -/

namespace Sys2Proof.Machine

/-- One step. With no command in progress nothing happens (log 3). A reserved `op` is refused, decided from `op` alone
(60_exceptions.md R162, R164). Otherwise the command leaves `issued` and its operation is executed, atomically
(20_memory.md R44, 60_exceptions.md R171). -/
def step (s : State) : Host.Outcome State Fault Refusal :=
  match s.take with
  | none => .next s
  | some (k, s') =>
    match decode k with
    | .error (.reservedOp op) => .refused (.reservedOp op)
    | .ok i => exec i s'

/-- `s` with the instruction of a table word as its oldest command, so that the very next step runs exactly it. -/
def State.withFetchWord (s : State) (nbits w : Nat) : State := s.placeTableWord nbits w

end Sys2Proof.Machine
end

