-- ==== Sys2Proof/Machine/Driver.lean ====
section
/-! DEFINITION. The driver's side of the interface: runs and their outcome (70_reset_and_hazards.md R188), the sampling of
the ports at issue (R185), and listings (30_encoding.md R70, R71). The driver is external (10_state.md R22); nothing here
is state of the block. -/

namespace Sys2Proof.Machine

/-! ### Runs -/

/-- A run in progress: the machine, and the mark a refused command leaves for the whole run (60_exceptions.md R162). -/
structure Run where
  machine : State
  mark : Option Refusal
deriving DecidableEq, Repr

/-- A run at its start: the machine after reset, its commands issued in order (70_reset_and_hazards.md R188). -/
def Run.start (ks : List Command) : Run := ⟨ks.foldl State.issue State.reset, none⟩

/-- One step of a run. A refusal marks the run for good (60_exceptions.md R162); no fault exists (R160). -/
def Run.step (r : Run) : Run :=
  match r.mark with
  | some _ => r
  | none =>
    match Sys2Proof.Machine.step r.machine with
    | .next s => ⟨s, none⟩
    | .refused why => ⟨r.machine, some why⟩
    | .fault f => nomatch f

/-- `n` steps of a run. -/
def Run.steps : Nat → Run → Run
  | 0, r => r
  | n + 1, r => Run.steps n r.step

/-- The outcome of a run that is over: the list of results, one per command, in the order of issue. A run that contains a
refused command has no outcome; a run with a command still in progress is not over (70_reset_and_hazards.md R188). -/
def Run.outcome (r : Run) : Option (List Word256) :=
  if r.mark = none ∧ r.machine.issued = [] then some (r.machine.returned.map Returned.r) else none

/-- The outcome of the run of a finite sequence of commands (70_reset_and_hazards.md R188). -/
def runOutcome (ks : List Command) : Option (List Word256) := (Run.steps ks.length (Run.start ks)).outcome

/-! ### The ports and issue -/

/-- The block with the values the driver holds on its input ports `op`, `a`, `b`, `c` (10_state.md R29). -/
structure Bench where
  ports : Command
  machine : State
deriving DecidableEq, Repr

/-- The driver changes the values on the input ports. -/
def Bench.drive (b : Bench) (p : Command) : Bench := { b with ports := p }

/-- The driver issues a command: the ports are sampled, once (70_reset_and_hazards.md R185, 10_state.md R30). -/
def Bench.issue (b : Bench) : Bench := { b with machine := b.machine.issue b.ports }

/-! ### Listings -/

/-- A name of a listing, bound to the result of a line of operand width `width` (30_encoding.md R70). Names are the
driver's: they are not registers of the block (10_state.md R21). -/
structure Binding where
  name : Nat
  width : Width
  r : Word256
deriving DecidableEq, Repr

/-- `name.lo`: the low half of a result, split at half the result's width (30_encoding.md R70). -/
def Binding.lo (b : Binding) : Word256 := (b.r.extractLsb' 0 (b.width.outBits / 2)).setWidth 256

/-- `name.hi`: the high half of a result, split at half the result's width (30_encoding.md R70). -/
def Binding.hi (b : Binding) : Word256 := (b.r.extractLsb' (b.width.outBits / 2) (b.width.outBits / 2)).setWidth 256

/-- The binding a name stands for: the newest of that name (log 11). -/
def lookupName (env : List Binding) (n : Nat) : Option Binding := env.find? (fun b => b.name == n)

/-- The value an operand of a listing puts on its port (30_encoding.md R70); none when its name is not bound yet.
DESIGN CHOICE (log 11): R70 allows literals of at most W bits and does not say what becomes of a wider one; it is taken
mod `2^256` here, and its bits above W are then ignored like those of any port value (R64). -/
def resolve (env : List Binding) : Source → Option Word256
  | .lit v => some (BitVec.ofNat 256 v)
  | .res n => (lookupName env n).map Binding.r
  | .lo n => (lookupName env n).map Binding.lo
  | .hi n => (lookupName env n).map Binding.hi

/-- The command with three resolved operands. -/
def commandOf (env : List Binding) (op : BitVec 3) (a b c : Source) : Option Command :=
  match resolve env a, resolve env b, resolve env c with
  | some va, some vb, some vc => some ⟨op, va, vb, vc⟩
  | _, _, _ => none

/-- The command a line stands for. `MUL<W>.<V> r, a, b` stands for `MADD<W>.<V> r, a, b, 0` (30_encoding.md R71). -/
def lineCommand (env : List Binding) : Line → Option Command
  | .madd w v _ a b c => commandOf env (opSelect w v) a b c
  | .mul w v _ a b => commandOf env (opSelect w v) a b (.lit 0)
  | .raw op _ a b c => commandOf env op a b c

/-- The names after a line whose command returned `r`. -/
def bindResult (env : List Binding) (r : Word256) : Line → List Binding
  | .madd w _ n _ _ _ => ⟨n, w, r⟩ :: env
  | .mul w _ n _ _ => ⟨n, w, r⟩ :: env
  | .raw op n _ _ _ =>
    match opWidth op with
    | none => env
    | some w => ⟨n, w, r⟩ :: env

/-- How a listing ends. -/
inductive ListingEnd where
  /-- Every line returned: the names with their values, and the machine. -/
  | finished (env : List Binding) (s : State)
  /-- The block refused a line's command, or one in progress before it (log 15); the run has no outcome (60_exceptions.md R162, 70_reset_and_hazards.md R188). -/
  | refused (why : Refusal)
  /-- A line names a result that does not exist yet, so the driver cannot issue it (30_encoding.md R70; log 11). -/
  | unbound (l : Line)
deriving DecidableEq, Repr

/-- The driver issues a command and waits for its result. DESIGN CHOICE (log 15): where other commands are in progress
already, it waits until they have all returned too, oldest first, so that the last result is the issued command's own. -/
def issueAndWait (s : State) (k : Command) : Run := Run.steps (s.issued.length + 1) ⟨s.issue k, none⟩

/-- The driver issues a listing's lines in order, each after the one before it has returned, so that "a command naming an
earlier result is issued after that result exists" (30_encoding.md R70). The spec starts every listing with no command in
progress (95_test_vectors.md section 3); from any other state the first line waits for the commands before it (log 15). -/
def runListing : Listing → List Binding → State → ListingEnd
  | [], env, s => .finished env s
  | l :: ls, env, s =>
    match lineCommand env l with
    | none => .unbound l
    | some k =>
      match issueAndWait s k with
      | ⟨_, some why⟩ => .refused why
      | ⟨s', none⟩ =>
        match s'.returned.getLast? with
        | none => .unbound l
        | some e => runListing ls (bindResult env e.r l) s'

end Sys2Proof.Machine
end

