-- ==== Sys2Proof/Machine/Reference.lean ====
section
/-! DEFINITION. The reference function every operation must equal (40_limb_primitives.md R94). -/

namespace Sys2Proof.Machine

/-- `REF_W(a, b, c) = (a * b + c) mod 2^OUT(W)`, in exact integer arithmetic (40_limb_primitives.md R94). -/
def refMadd (w : Width) (a b c : Nat) : Nat := (a * b + c) % 2 ^ w.outBits

/-- The value required of an operation, in either variant (40_limb_primitives.md R94, R96). -/
def reference (i : Instr) : Nat := refMadd i.width i.factorA i.factorB i.addend

end Sys2Proof.Machine
end

