-- ==== Sys2Proof/Safety.lean ====
section
/-! DEFINITION. The terms that statements use: a command that selects an operation, a run that cannot be refused, and the
invariant that every result returned is the required one. -/

namespace Sys2Proof.Machine

/-- A command whose `op` selects one of the six operations (30_encoding.md R66: a driver must never issue another). -/
def selectsOperation (k : Command) : Bool := decide (k.op.toNat < 6)

/-- A state in which every command in progress selects an operation. -/
def State.allSelect (s : State) : Prop := ∀ k ∈ s.issued, selectsOperation k = true

/-- The value required of a command: that of the operation it selects (40_limb_primitives.md R94). -/
def commandReference (k : Command) : Option Nat :=
  match decode k with
  | .ok i => some (reference i)
  | .error _ => none

/-- Every result returned is the value required of its own operation and operands (10_state.md R27, R30;
40_limb_primitives.md R94). -/
def State.resultsCorrect (s : State) : Prop := ∀ e ∈ s.returned, e.r.toNat = reference e.instr

end Sys2Proof.Machine
end

