-- ==== Sys2Proof/Certificates/Slice0/Obligations.lean ====
section
/-! DEFINITION. The statements about the model, one `Prop` each, for the provers. OBLIGATIONS.json lists them with the
rules of spec/ they formalise. Nothing here is proved. -/

open Sys2Proof Sys2Proof.Machine

/-! ### Limbs and the limb_adder (40_limb_primitives.md R80 to R88, 20_memory.md R41) -/

/-- R41: the limb order is fixed, low first, with the weights `2^64` and `2^128`; the four 64-bit limbs of a 256-bit value
spell it from the least significant up; a 64-bit operand and the low Word64 of a 128-bit operand occupy the same port
bits. -/
def Obligations.LimbOrderIsLowFirst : Prop :=
  (∀ v : Word128, v.toNat = (split 64 v).low.toNat + (split 64 v).high.toNat * 2 ^ 64) ∧
  (∀ v : Word256, v.toNat = (split 128 v).low.toNat + (split 128 v).high.toNat * 2 ^ 128) ∧
  (∀ v : Word256, limbs64 v = [v.extractLsb 63 0, v.extractLsb 127 64, v.extractLsb 191 128, v.extractLsb 255 192] ∧
    limbsValue (limbs64 v) = v.toNat) ∧
  (∀ p : Word256, operandField 64 p = (split 64 (operandField 128 p)).low)

/-- R80, R81: `SPLIT_W` gives the low and the high `W` bits, `JOIN_W` is its inverse, and the join by OR is the sum of
the two fields. -/
def Obligations.JoinInvertsSplit : Prop :=
  ∀ W : Nat,
    (∀ v : BitVec (2 * W), (split W v).low.toNat = v.toNat % 2 ^ W ∧ (split W v).high.toNat = v.toNat / 2 ^ W ∧
      join W (split W v) = v) ∧
    (∀ p : Limbs W, (join W p).toNat = p.high.toNat * 2 ^ W + p.low.toNat ∧ split W (join W p) = p)

/-- R82, R83: the sum and the carry of `ADD_W` and of `ADC_W` are exact; the carry is the comparison of the wrapped sum
with either operand; the two carries inside `ADC_W` are never both 1. -/
def Obligations.LimbAdderCarriesExactly : Prop :=
  ∀ (W : Nat) (x y : BitVec W) (cin : Bool), 0 < W →
    ((addW x y).s.toNat = (x.toNat + y.toNat) % 2 ^ W ∧
      x.toNat + y.toNat = (addW x y).k.toNat * 2 ^ W + (addW x y).s.toNat ∧
      ((addW x y).k = true ↔ (addW x y).s.toNat < x.toNat) ∧ ((addW x y).k = true ↔ (addW x y).s.toNat < y.toNat)) ∧
    (x.toNat + y.toNat + cin.toNat = (adcW x y cin).k.toNat * 2 ^ W + (adcW x y cin).s.toNat ∧
      ¬((addW x y).k = true ∧ (addW (addW x y).s (bitValue W cin)).k = true))

/-- R84: the carry chain over `n` limbs is the addition of the `n*W`-bit values: the sum has `n` limbs, and
`x + y = k * 2^(n*W) + s`. On two limbs it is `ADD_2W`, limb for limb. -/
def Obligations.CarryChainIsWideAddition : Prop :=
  (∀ (W : Nat) (xy : List (BitVec W × BitVec W)), 0 < W →
    (addN xy).1.length = xy.length ∧
    limbsValue (xy.map Prod.fst) + limbsValue (xy.map Prod.snd)
      = (addN xy).2.toNat * 2 ^ (xy.length * W) + limbsValue (addN xy).1) ∧
  (∀ (W : Nat) (x y : BitVec (2 * W)), 0 < W →
    addN [((split W x).low, (split W y).low), ((split W x).high, (split W y).high)]
      = ([(split W (addW x y).s).low, (split W (addW x y).s).high], (addW x y).k))

/-- R85, R86: the difference and the borrow of `SUB_W` and of `SBB_W` are exact (the identities are written over the
integers), the borrow of `SUB_W` is `x < y`, equivalently `d > x`, and the two borrows inside `SBB_W` are never both 1. -/
def Obligations.LimbSubtractorBorrowsExactly : Prop :=
  ∀ (W : Nat) (x y : BitVec W) (win : Bool), 0 < W →
    ((subW x y).d = x - y ∧ ((subW x y).w = true ↔ x.toNat < y.toNat) ∧
      ((subW x y).w = true ↔ x.toNat < (subW x y).d.toNat) ∧
      (x.toNat : Int) - y.toNat = (subW x y).d.toNat - (subW x y).w.toNat * 2 ^ W) ∧
    ((x.toNat : Int) - y.toNat - win.toNat = (sbbW x y win).d.toNat - (sbbW x y win).w.toNat * 2 ^ W ∧
      ¬((subW x y).w = true ∧ (subW (subW x y).d (bitValue W win)).w = true))

/-- R87: the borrow chain over `n` limbs is the subtraction of the `n*W`-bit values: the difference has `n` limbs, and
`x - y = d - w * 2^(n*W)`. On two limbs it is `SUB_2W`, limb for limb. -/
def Obligations.BorrowChainIsWideSubtraction : Prop :=
  (∀ (W : Nat) (xy : List (BitVec W × BitVec W)), 0 < W →
    (subN xy).1.length = xy.length ∧
    (limbsValue (xy.map Prod.fst) : Int) - limbsValue (xy.map Prod.snd)
      = limbsValue (subN xy).1 - (subN xy).2.toNat * 2 ^ (xy.length * W)) ∧
  (∀ (W : Nat) (x y : BitVec (2 * W)), 0 < W →
    subN [((split W x).low, (split W y).low), ((split W x).high, (split W y).high)]
      = ([(split W (subW x y).d).low, (split W (subW x y).d).high], (subW x y).w))

/-- R88: the base multiplier is exact at every width, its product is at most `(2^n - 1)^2`, and factors 0 and 1 act as
such. -/
def Obligations.BaseMultiplierIsExact : Prop :=
  ∀ (n : Nat) (x y : BitVec n), (mulN x y).toNat = x.toNat * y.toNat ∧ (mulN x y).toNat ≤ (2 ^ n - 1) ^ 2 ∧
    (y.toNat = 0 → (mulN x y).toNat = 0) ∧ (y.toNat = 1 → (mulN x y).toNat = x.toNat)

/-! ### Middle term, recomposition, accumulation (R89 to R93) -/

/-- R89: over any exact `W`-bit multiplier `M`, `WMUL_W` is the exact product of its two factors of `W+1` bits; on sums
of two limbs it is at most `(2^(W+1) - 2)^2`, which is below `2^(2W+2)`. -/
def Obligations.WidenedProductIsExact : Prop :=
  ∀ (W : Nat) (M : BitVec W → BitVec W → BitVec (2 * W)), (∀ x y, (M x y).toNat = x.toNat * y.toNat) →
    (∀ sa sb : BitVec (W + 1), (wmul W M sa sb).toNat = sa.toNat * sb.toNat) ∧
    (∀ a0 a1 b0 b1 : BitVec W, (wmul W M (wideSum a0 a1) (wideSum b0 b1)).toNat ≤ (2 ^ (W + 1) - 2) ^ 2)

/-- R90, R91: over any exact multiplier, `MIDSUM_W` of the cross products and `MIDSUB_W` of the Karatsuba products are
the same pair `(mid, mc)`; its value is `a0*b1 + a1*b0`, at most `2 * (2^W - 1)^2`; `mc` is 1 exactly when that value is
at least `2^(2W)`. -/
def Obligations.MiddleTermsAgreeAndAreExact : Prop :=
  ∀ (W : Nat) (M : BitVec W → BitVec W → BitVec (2 * W)), (∀ x y, (M x y).toNat = x.toNat * y.toNat) →
    ∀ a0 a1 b0 b1 : BitVec W,
      midSub W (wmul W M (wideSum a0 a1) (wideSum b0 b1)) (M a0 b0) (M a1 b1) = midSum W (M a0 b1) (M a1 b0) ∧
      (midSum W (M a0 b1) (M a1 b0)).k.toNat * 2 ^ (2 * W) + (midSum W (M a0 b1) (M a1 b0)).s.toNat
        = a0.toNat * b1.toNat + a1.toNat * b0.toNat ∧
      a0.toNat * b1.toNat + a1.toNat * b0.toNat ≤ 2 * (2 ^ W - 1) ^ 2 ∧
      ((midSum W (M a0 b1) (M a1 b0)).k = true ↔ 2 ^ (2 * W) ≤ a0.toNat * b1.toNat + a1.toNat * b0.toNat)

/-- R92: on the true partial products of two `2W`-bit operands, `RECOMB_W` gives the two halves of their exact product,
and the `mod` in the high half removes nothing. -/
def Obligations.RecompositionIsExact : Prop :=
  ∀ (W : Nat) (a b : BitVec (2 * W)) (z0 z2 : BitVec (2 * W)) (mid : CarrySum (2 * W)),
    z0.toNat = (split W a).low.toNat * (split W b).low.toNat →
    z2.toNat = (split W a).high.toNat * (split W b).high.toNat →
    mid.k.toNat * 2 ^ (2 * W) + mid.s.toNat
      = (split W a).low.toNat * (split W b).high.toNat + (split W a).high.toNat * (split W b).low.toNat →
    (recomb W z0 mid z2).high.toNat * 2 ^ (2 * W) + (recomb W z0 mid z2).low.toNat = a.toNat * b.toNat ∧
    (recomb W z0 mid z2).high.toNat
      = z2.toNat + mid.s.toNat / 2 ^ W + mid.k.toNat * 2 ^ W
        + (addW z0 ((mid.s.extractLsb' 0 W).setWidth (2 * W) <<< W)).k.toNat

/-- R93: the accumulate step adds `c` to the value of the pair mod `2^(2N)`; `c = 0` leaves the pair unchanged; when the
pair is the product of two `N`-bit values nothing wraps. -/
def Obligations.AccumulatorAddsWithCarry : Prop :=
  ∀ (N : Nat) (p : Limbs N) (c : BitVec N),
    (acc p c).high.toNat * 2 ^ N + (acc p c).low.toNat
      = (p.high.toNat * 2 ^ N + p.low.toNat + c.toNat) % 2 ^ (2 * N) ∧
    (c.toNat = 0 → acc p c = p) ∧
    (∀ x y : BitVec N, p.high.toNat * 2 ^ N + p.low.toNat = x.toNat * y.toNat →
      (acc p c).high.toNat * 2 ^ N + (acc p c).low.toNat = x.toNat * y.toNat + c.toNat)

/-! ### The six operations (R110 to R112, R130 to R132): encoding, result, and all that the operation changes -/

/-- R110: `MADD64.S`, `op = 000`, completes in every state and for all operands; it returns `a*b + c` exactly, at most
`2^128 - 2^64`, the value of the native form `zext_128(a) * zext_128(b) + zext_128(c)`, and changes nothing else. -/
def Obligations.Madd64SReturnsExactValue : Prop :=
  ∀ (a b c : Word64) (s : State), (encode (.madd64S a b c)).op = 0b000#3 ∧
    ∃ r : Word256, exec (.madd64S a b c) s = .next { s with returned := s.returned ++ [⟨.madd64S a b c, r⟩] } ∧
      r.toNat = a.toNat * b.toNat + c.toNat ∧ r.toNat ≤ 2 ^ 128 - 2 ^ 64 ∧
      r = resultField (a.setWidth 128 * b.setWidth 128 + c.setWidth 128)

/-- R111: `MADD128.S`, `op = 010`, completes in every state and for all operands; it returns `a*b + c` exactly, at most
`2^256 - 2^128`, and changes nothing else. -/
def Obligations.Madd128SReturnsExactValue : Prop :=
  ∀ (a b c : Word128) (s : State), (encode (.madd128S a b c)).op = 0b010#3 ∧
    ∃ r : Word256, exec (.madd128S a b c) s = .next { s with returned := s.returned ++ [⟨.madd128S a b c, r⟩] } ∧
      r.toNat = a.toNat * b.toNat + c.toNat ∧ r.toNat ≤ 2 ^ 256 - 2 ^ 128

/-- R112: `MADD256.S`, `op = 100`, completes in every state and for all operands; it returns `(a*b + c) mod 2^256` and
changes nothing else; the reduced form (decision D20), with `M_128` of either variant, gives the same result. -/
def Obligations.Madd256SReturnsWrappedValue : Prop :=
  ∀ (a b c : Word256) (s : State), (encode (.madd256S a b c)).op = 0b100#3 ∧
    ∃ r : Word256, exec (.madd256S a b c) s = .next { s with returned := s.returned ++ [⟨.madd256S a b c, r⟩] } ∧
      r.toNat = (a.toNat * b.toNat + c.toNat) % 2 ^ 256 ∧ ∀ v : Variant, madd256SReduced v a b c = r

/-- R130: `MADD64.K`, `op = 001`, completes in every state and for all operands; it returns `a*b + c` exactly and changes
nothing else. -/
def Obligations.Madd64KReturnsExactValue : Prop :=
  ∀ (a b c : Word64) (s : State), (encode (.madd64K a b c)).op = 0b001#3 ∧
    ∃ r : Word256, exec (.madd64K a b c) s = .next { s with returned := s.returned ++ [⟨.madd64K a b c, r⟩] } ∧
      r.toNat = a.toNat * b.toNat + c.toNat

/-- R131: `MADD128.K`, `op = 011`, completes in every state and for all operands; it returns `a*b + c` exactly and
changes nothing else. -/
def Obligations.Madd128KReturnsExactValue : Prop :=
  ∀ (a b c : Word128) (s : State), (encode (.madd128K a b c)).op = 0b011#3 ∧
    ∃ r : Word256, exec (.madd128K a b c) s = .next { s with returned := s.returned ++ [⟨.madd128K a b c, r⟩] } ∧
      r.toNat = a.toNat * b.toNat + c.toNat

/-- R132: `MADD256.K`, `op = 101`, completes in every state and for all operands; it returns `(a*b + c) mod 2^256` and
changes nothing else; the reduced form (decision D20), with `M_128` of either variant, gives the same result. -/
def Obligations.Madd256KReturnsWrappedValue : Prop :=
  ∀ (a b c : Word256) (s : State), (encode (.madd256K a b c)).op = 0b101#3 ∧
    ∃ r : Word256, exec (.madd256K a b c) s = .next { s with returned := s.returned ++ [⟨.madd256K a b c, r⟩] } ∧
      r.toNat = (a.toNat * b.toNat + c.toNat) % 2 ^ 256 ∧ ∀ v : Variant, madd256KReduced v a b c = r

/-- R65: an operation of width 64 drives `r[127:0]` with its 128-bit result and `r[255:128]` with zero; an operation of
width 128 or 256 drives all of `r` with its 256-bit result. -/
def Obligations.ResultFieldOfEachWidth : Prop :=
  ∀ (i : Instr) (s : State), ∃ r : Word256, exec i s = .next (s.returnResult i r) ∧
    (i.width = .w64 → (r.extractLsb 127 0).toNat = i.factorA * i.factorB + i.addend ∧ r.extractLsb 255 128 = 0#128) ∧
    (i.width ≠ .w64 → r.toNat = (i.factorA * i.factorB + i.addend) % 2 ^ 256)

/-! ### Arithmetic laws and equivalences (R94 to R96, R98, R99, R182, R189) -/

/-- R95: at widths 64 and 128 the reference value loses nothing, and its largest value `2^(2W) - 2^W` is reached; at
width 256 the exact value reaches `2^512 - 2^256` and the operation returns its low 256 bits, never a clamped value:
where the exact value is `2^256` or more the result is below the exact value by a multiple of `2^256`. -/
def Obligations.ExactAt64And128WrapsAt256 : Prop :=
  (∀ i : Instr, i.width ≠ .w256 → reference i = i.factorA * i.factorB + i.addend ∧
    i.factorA * i.factorB + i.addend ≤ 2 ^ (2 * i.width.bits) - 2 ^ i.width.bits) ∧
  (∀ i : Instr, i.factorA = 2 ^ i.width.bits - 1 → i.factorB = 2 ^ i.width.bits - 1 → i.addend = 2 ^ i.width.bits - 1 →
    i.factorA * i.factorB + i.addend = 2 ^ (2 * i.width.bits) - 2 ^ i.width.bits) ∧
  (∀ (i : Instr) (s : State), i.width = .w256 → ∃ (r : Word256) (dropped : Nat),
    exec i s = .next (s.returnResult i r) ∧ i.factorA * i.factorB + i.addend = dropped * 2 ^ 256 + r.toNat)

/-- R94, R96: for every width and all operands the schoolbook and the Karatsuba operation return the same bits, the
required value `REF_W(a, b, c) = (a*b + c) mod 2^OUT(W)`. -/
def Obligations.VariantsReturnTheSameBits : Prop :=
  ∀ (i : Instr) (s : State), ∃ r : Word256, r.toNat = reference i ∧
    exec i s = .next (s.returnResult i r) ∧ exec i.otherVariant s = .next (s.returnResult i.otherVariant r)

/-- R98: the delegated half-width multiplication is the exact product for either choice of variant, so the choice
`SUBMUL` changes no result of the four wider operations. -/
def Obligations.SubMultiplierChoiceIsUnobservable : Prop :=
  (∀ (v : Variant) (x y : Word64), (delegate64 v x y).toNat = x.toNat * y.toNat) ∧
  (∀ (v : Variant) (x y : Word128), (delegate128 v x y).toNat = x.toNat * y.toNat) ∧
  (∀ (v : Variant) (a b c : Word128), madd128SWith v a b c = madd128S a b c ∧ madd128KWith v a b c = madd128K a b c) ∧
  (∀ (v : Variant) (a b c : Word256), madd256SWith v a b c = madd256S a b c ∧ madd256KWith v a b c = madd256K a b c)

/-- R182: a Karatsuba datapath that keeps the middle term in `2W` wrap-around bits holds `mid` and drops `mc`; it is
wrong exactly when `a0*b1 + a1*b0 >= 2^(2W)`, and then its product is too small by `2^(3W)`. -/
def Obligations.NarrowMiddleTermFailsExactlyOnCarry : Prop :=
  ∀ (W : Nat) (a b : BitVec (2 * W)) (m : BitVec (2 * W + 2)) (mid : CarrySum (2 * W)) (narrow : Limbs (2 * W)) (z1 : Nat),
    m = wmul W mulN (wideSum (split W a).low (split W a).high) (wideSum (split W b).low (split W b).high) →
    mid = midSub W m (mulN (split W a).low (split W b).low) (mulN (split W a).high (split W b).high) →
    narrow = recomb W (mulN (split W a).low (split W b).low) ⟨mid.s, false⟩ (mulN (split W a).high (split W b).high) →
    z1 = (split W a).low.toNat * (split W b).high.toNat + (split W a).high.toNat * (split W b).low.toNat →
    mid.s = m.setWidth (2 * W) - mulN (split W a).low (split W b).low - mulN (split W a).high (split W b).high ∧
    (z1 < 2 ^ (2 * W) → narrow.high.toNat * 2 ^ (2 * W) + narrow.low.toNat = a.toNat * b.toNat) ∧
    (2 ^ (2 * W) ≤ z1 → narrow.high.toNat * 2 ^ (2 * W) + narrow.low.toNat + 2 ^ (3 * W) = a.toNat * b.toNat)

/-- R189: the probe's condition, both sums setting bit `W` (`ca = cb = 1`), is necessary for the narrow datapath to fail
(`mc = 1`), and at `W = 32` it is not sufficient: `a = b = 0x8000000080000000` meets it with `mc = 0`. -/
def Obligations.MiddleCarryNeedsBothSumCarries : Prop :=
  (∀ (W : Nat) (a0 a1 b0 b1 : BitVec W), (midSum W (mulN a0 b1) (mulN a1 b0)).k = true →
    (addW a0 a1).k = true ∧ (addW b0 b1).k = true) ∧
  ((addW 0x80000000#32 0x80000000#32).k = true ∧
    (midSum 32 (mulN 0x80000000#32 0x80000000#32) (mulN 0x80000000#32 0x80000000#32)).k = false)

/-- R99: for every operation and all operands: a zero factor returns `c`; a zero accumulate term returns the product;
all zero returns zero; exchanging the factors returns the same; all ones returns the three stated values. -/
def Obligations.ArithmeticLawsOfEveryOperation : Prop :=
  ∀ (i : Instr) (s : State), ∃ r : Word256,
    exec i s = .next (s.returnResult i r) ∧
    (i.factorA = 0 ∨ i.factorB = 0 → r.toNat = i.addend) ∧
    (i.addend = 0 → r.toNat = i.factorA * i.factorB % 2 ^ i.width.outBits) ∧
    (i.factorA = 0 ∧ i.factorB = 0 ∧ i.addend = 0 → r = 0#256) ∧
    exec i.swapFactors s = .next (s.returnResult i.swapFactors r) ∧
    (i.factorA = 2 ^ i.width.bits - 1 ∧ i.factorB = 2 ^ i.width.bits - 1 ∧ i.addend = 2 ^ i.width.bits - 1 →
      (i.width = .w64 → r.toNat = 0xFFFFFFFFFFFFFFFF0000000000000000) ∧
      (i.width = .w128 → r.toNat = (2 ^ 128 - 1) * 2 ^ 128) ∧
      (i.width = .w256 → r.toNat = 0))

/-! ### Encoding (R60 to R66) -/

/-- R61, R62: for every value of `op`, the rows of opcode_table.json that select it are exactly one, whose mnemonic is
that of the operation the decoder gives, or none, where the decoder rejects the value as reserved. -/
def Obligations.OpcodeTableAndDecoderAgree : Prop :=
  ∀ k : Command, match decode k with
    | .ok i => opcodeTable.filter (fun row => row.selects k.op) = [⟨i.mnemonic, k.op, 0b111#3⟩] ∧ k.op.toNat < 6
    | .error e => opcodeTable.filter (fun row => row.selects k.op) = [] ∧ e = .reservedOp k.op ∧ 6 ≤ k.op.toNat

/-- Decoding the encoding of an operation gives it back, with every operand at every value (30_encoding.md R60, R61,
R64). -/
def Obligations.DecodeInvertsEncode : Prop := ∀ i : Instr, decode (encode i) = .ok i

/-- A well-formed command decodes, and encoding the operation gives the command back, bit for bit; a command that decodes
at all has the `op` of its operation's encoding (30_encoding.md R60, R61, R64). -/
def Obligations.EncodeInvertsDecodeOnWellFormed : Prop :=
  (∀ k : Command, k.wellFormed = true → ∃ i, decode k = .ok i ∧ encode i = k) ∧
  (∀ (k : Command) (i : Instr), decode k = .ok i → (encode i).op = k.op)

/-- R64: an operation of width W reads `a[W-1:0]`, `b[W-1:0]`, `c[W-1:0]`, each as the unsigned integer its bits spell,
and the bits above have no effect: two commands that agree on `op` and on those bits take the same step. -/
def Obligations.UnusedOperandBitsAreIgnored : Prop :=
  (∀ (k : Command) (i : Instr), decode k = .ok i →
    i.factorA = k.a.toNat % 2 ^ i.width.bits ∧ i.factorB = k.b.toNat % 2 ^ i.width.bits ∧
    i.addend = k.c.toNat % 2 ^ i.width.bits) ∧
  (∀ (k k' : Command) (w : Width) (rest : List Command) (done : List Returned), opWidth k.op = some w → k.op = k'.op →
    k.a.toNat % 2 ^ w.bits = k'.a.toNat % 2 ^ w.bits → k.b.toNat % 2 ^ w.bits = k'.b.toNat % 2 ^ w.bits →
    k.c.toNat % 2 ^ w.bits = k'.c.toNat % 2 ^ w.bits → step ⟨k :: rest, done⟩ = step ⟨k' :: rest, done⟩)

/-- Words written out from R61's table: the decoder reads the six operations from 000 to 101, with operands of zeros,
and nothing from 110 and 111. -/
def Obligations.TableWordsDecodeAsWritten : Prop :=
  decodeTableWord 8 0b000 = some (.madd64S 0#64 0#64 0#64) ∧ decodeTableWord 8 0b001 = some (.madd64K 0#64 0#64 0#64) ∧
  decodeTableWord 8 0b010 = some (.madd128S 0#128 0#128 0#128) ∧
  decodeTableWord 8 0b011 = some (.madd128K 0#128 0#128 0#128) ∧
  decodeTableWord 8 0b100 = some (.madd256S 0#256 0#256 0#256) ∧
  decodeTableWord 8 0b101 = some (.madd256K 0#256 0#256 0#256) ∧
  decodeTableWord 8 0b110 = none ∧ decodeTableWord 8 0b111 = none

/-! ### Steps, refusals, runs -/

/-- A step executes the operation that the oldest command in progress decodes to, on the state without that command
(10_state.md R30); with no command in progress it changes nothing (the model's choice, log 3). -/
def Obligations.StepRunsTheDecodedOperation : Prop :=
  (∀ (s : State) (k : Command) (rest : List Command) (i : Instr), s.issued = k :: rest → decode k = .ok i →
    step s = exec i { s with issued := rest }) ∧
  (∀ s : State, s.issued = [] → step s = .next s)

/-- A table word placed by `withFetchWord` is what the very next step runs, whatever was in progress before. -/
def Obligations.PlacedWordRunsNext : Prop :=
  ∀ (s : State) (nbits w : Nat) (i : Instr), decodeTableWord nbits w = some i →
    step (s.withFetchWord nbits w) = exec i s

/-- R66, R164: a step is refused exactly when the oldest command's `op` is 110 or 111, whatever the operands and the rest
of the state are; the refusal names that `op`. -/
def Obligations.ExactlyReservedOpsAreRefused : Prop :=
  ∀ (s : State) (why : Refusal), step s = .refused why ↔
    ∃ (k : Command) (rest : List Command), s.issued = k :: rest ∧ (k.op = 0b110#3 ∨ k.op = 0b111#3) ∧
      why = .reservedOp k.op

/-- R160: every operation is total, for any operands in any state it answers a next state; no step raises a fault. -/
def Obligations.NoOperationCanFail : Prop :=
  (∀ (i : Instr) (s : State), ∃ t : State, exec i s = .next t) ∧ (∀ (s : State) (f : Fault), step s ≠ .fault f)

/-- R27: the value an operation returns depends on the operation and its operands and on nothing else. -/
def Obligations.ResultDependsOnCommandOnly : Prop :=
  ∃ f : Instr → Word256, ∀ (i : Instr) (s : State), exec i s = .next { s with returned := s.returned ++ [⟨i, f i⟩] }

/-- A reserved `op` is refused and leaves a mark for the whole run (60_exceptions.md R162), and such a run has no outcome
(70_reset_and_hazards.md R188). That the mark stands in the run's record, and that after it the run keeps the same machine
and takes no further step, is the model's reading (log 5). -/
def Obligations.RefusalMarksTheRunForGood : Prop :=
  ∀ (s : State) (k : Command) (rest : List Command) (n : Nat), s.issued = k :: rest → (k.op = 0b110#3 ∨ k.op = 0b111#3) →
    step s = .refused (.reservedOp k.op) ∧
    (Run.steps (n + 1) ⟨s, none⟩) = ⟨s, some (.reservedOp k.op)⟩ ∧ (Run.steps (n + 1) ⟨s, none⟩).outcome = none

/-- R188 with R94: a run of any finite sequence of commands that all select operations has an outcome, the list of
results, one per command, in the order of issue, each the reference value of its command; a run that contains a reserved
command, anywhere in it, has no outcome. -/
def Obligations.RunOutcomeIsReferenceOfEachCommand : Prop :=
  ∀ ks : List Command,
    ((∀ k ∈ ks, selectsOperation k = true) →
      ∃ rs : List Word256, runOutcome ks = some rs ∧ rs.map (fun r => some r.toNat) = ks.map commandReference) ∧
    ((∃ k ∈ ks, selectsOperation k = false) → runOutcome ks = none)

/-- R47: no command's result depends on any other command: in a run, the result in a command's place is the one it
returns alone; and issuing the same commands in another order only reorders the results. -/
def Obligations.CommandsDoNotInteract : Prop :=
  (∀ (before after : List Command) (k : Command), (∀ x ∈ before ++ k :: after, selectsOperation x = true) →
    ∃ (r : Word256) (rs : List Word256), runOutcome [k] = some [r] ∧ runOutcome (before ++ k :: after) = some rs ∧
      rs[before.length]? = some r) ∧
  (∀ ks ks' : List Command, (∀ x ∈ ks, selectsOperation x = true) → ks.Perm ks' →
    ∃ rs rs' : List Word256, runOutcome ks = some rs ∧ runOutcome ks' = some rs' ∧ rs.Perm rs')

/-- R187, "every command completes": from any state whose commands in progress all select operations, as many steps as
there are commands leave none in progress, with one result added for each and the earlier results unchanged. -/
def Obligations.EveryIssuedCommandCompletes : Prop :=
  ∀ s : State, s.allSelect → ∃ new : List Returned,
    Run.steps s.issued.length ⟨s, none⟩ = ⟨⟨[], s.returned ++ new⟩, none⟩ ∧ new.length = s.issued.length

/-- R94 as an invariant: if every result returned so far is the reference value of its own operation and operands, a step
keeps it so. -/
def Obligations.StepKeepsResultsCorrect : Prop :=
  ∀ s t : State, s.resultsCorrect → step s = .next t → t.resultsCorrect

/-- The invariant of `StepKeepsResultsCorrect` holds after reset. -/
def Obligations.ResetResultsAreCorrect : Prop := State.reset.resultsCorrect

/-- After reset nothing is in progress and nothing has been returned, and a step changes nothing. Both fields are the
model's own record of the interface (logs 1, 2 and 3): the spec's initial state is the empty record (R180). -/
def Obligations.ResetHoldsNothing : Prop :=
  State.reset.issued = [] ∧ State.reset.returned = [] ∧ step State.reset = .next State.reset

/-! ### The driver: sampling, listings (R70, R71, R185) -/

/-- R185: the operands of a command are sampled once, at issue: the command that joins the commands in progress is what
the ports hold then, and driving the ports afterwards, any number of times, changes nothing of the machine. -/
def Obligations.OperandsAreSampledAtIssue : Prop :=
  ∀ (b : Bench) (later : List Command),
    (later.foldl Bench.drive b.issue).machine = b.issue.machine ∧
    b.issue.machine.issued = b.machine.issued ++ [b.ports] ∧ b.issue.machine.returned = b.machine.returned

/-- R71: `MUL<W>.<V> r, a, b` stands for `MADD<W>.<V> r, a, b, 0`; when the factors resolve, it issues exactly that
command. -/
def Obligations.MulStandsForMaddWithZero : Prop :=
  ∀ (env : List Binding) (w : Width) (v : Variant) (r : Nat) (a b : Source),
    lineCommand env (.mul w v r a b) = lineCommand env (.madd w v r a b (.lit 0)) ∧
    (∀ va vb : Word256, resolve env a = some va → resolve env b = some vb →
      lineCommand env (.mul w v r a b) = some ⟨opSelect w v, va, vb, 0#256⟩)

/-- A well-formed listing (30_encoding.md R70, R71) runs to its end from reset: no line is unbound or refused, each line
returns one result (10_state.md R30, 70_reset_and_hazards.md R187), every result is the reference value of its operation
(40_limb_primitives.md R94), and no command stays in progress. The resolution of names is the model's (log 11). -/
def Obligations.WellFormedListingFinishes : Prop :=
  ∀ ls : Listing, Listing.wellFormed [] ls = true → ∃ (env : List Binding) (s : State),
    runListing ls [] State.reset = .finished env s ∧ s.issued = [] ∧ s.returned.length = ls.length ∧ s.resultsCorrect
end

