-- ==== Sys2Proof/Laws/Decode.lean ====
section
/-! SUPPORT. What the decoder answers at each of the eight values of `op`, and the laws of operand fields. -/

namespace Sys2Proof

open Machine

/-- The eight values of the operation select. -/
theorem op_cases (op : BitVec 3) : op = 0b000#3 ∨ op = 0b001#3 ∨ op = 0b010#3 ∨ op = 0b011#3 ∨ op = 0b100#3 ∨
    op = 0b101#3 ∨ op = 0b110#3 ∨ op = 0b111#3 := by
  revert op; decide

@[simp] theorem decode_000 (a b c : Word256) : decode ⟨0b000#3, a, b, c⟩ =
    .ok (.madd64S (operandField 64 a) (operandField 64 b) (operandField 64 c)) := rfl
@[simp] theorem decode_001 (a b c : Word256) : decode ⟨0b001#3, a, b, c⟩ =
    .ok (.madd64K (operandField 64 a) (operandField 64 b) (operandField 64 c)) := rfl
@[simp] theorem decode_010 (a b c : Word256) : decode ⟨0b010#3, a, b, c⟩ =
    .ok (.madd128S (operandField 128 a) (operandField 128 b) (operandField 128 c)) := rfl
@[simp] theorem decode_011 (a b c : Word256) : decode ⟨0b011#3, a, b, c⟩ =
    .ok (.madd128K (operandField 128 a) (operandField 128 b) (operandField 128 c)) := rfl
@[simp] theorem decode_100 (a b c : Word256) : decode ⟨0b100#3, a, b, c⟩ =
    .ok (.madd256S (operandField 256 a) (operandField 256 b) (operandField 256 c)) := rfl
@[simp] theorem decode_101 (a b c : Word256) : decode ⟨0b101#3, a, b, c⟩ =
    .ok (.madd256K (operandField 256 a) (operandField 256 b) (operandField 256 c)) := rfl
@[simp] theorem decode_110 (a b c : Word256) : decode ⟨0b110#3, a, b, c⟩ = .error (.reservedOp 0b110#3) := rfl
@[simp] theorem decode_111 (a b c : Word256) : decode ⟨0b111#3, a, b, c⟩ = .error (.reservedOp 0b111#3) := rfl

/-- The operation select of a width and a variant reads back as both. -/
@[simp] theorem opWidth_opSelect (w : Width) (v : Variant) : opWidth (opSelect w v) = some w := by
  cases w <;> cases v <;> rfl
@[simp] theorem opVariant_opSelect (w : Width) (v : Variant) : opVariant (opSelect w v) = v := by
  cases w <;> cases v <;> rfl

/-- An operand of at most 256 bits laid on a port is read back whole. -/
theorem operandField_operandOnPort {W : Nat} (hW : W ≤ 256) (x : BitVec W) : operandField W (operandOnPort x) = x := by
  have hx : x.toNat < 2 ^ 256 := Nat.lt_of_lt_of_le x.isLt (Nat.pow_le_pow_right (by omega) hW)
  apply BitVec.eq_of_toNat_eq
  simp only [operandField, operandOnPort, BitVec.extractLsb'_toNat, BitVec.toNat_setWidth, Nat.shiftRight_zero,
    Nat.mod_eq_of_lt hx, Nat.mod_eq_of_lt x.isLt]

/-- A port value of at most `W` bits is its operand field laid on the port. -/
theorem operandOnPort_operandField {W : Nat} {p : Word256} (hp : p.toNat < 2 ^ W) :
    operandOnPort (operandField W p) = p := by
  apply BitVec.eq_of_toNat_eq
  simp only [operandField, operandOnPort, BitVec.extractLsb'_toNat, BitVec.toNat_setWidth, Nat.shiftRight_zero,
    Nat.mod_eq_of_lt hp, Nat.mod_eq_of_lt p.isLt]

end Sys2Proof
end

