-- ==== Sys2Proof/Laws/Limb.lean ====
section
/-! SUPPORT. One lemma per limb primitive that says, in exact integer arithmetic, everything it computes. -/

namespace Sys2Proof.Machine

/-- A bit as a value of `W` bits, at every width. -/
theorem bitValue_toNat_mod (W : Nat) (k : Bool) : (bitValue W k).toNat = k.toNat % 2 ^ W := by
  simp only [bitValue, BitVec.toNat_setWidth, BitVec.toNat_ofBool]

theorem bitValue_toNat {W : Nat} (hW : 0 < W) (k : Bool) : (bitValue W k).toNat = k.toNat := by
  have h : k.toNat < 2 ^ W := Nat.lt_of_lt_of_le (Bool.toNat_lt k) (by simpa using Nat.pow_le_pow_right (by omega : 0 < 2) hW)
  simp only [bitValue, BitVec.toNat_setWidth, BitVec.toNat_ofBool]
  exact Nat.mod_eq_of_lt h

theorem operandField_toNat (W : Nat) (p : Word256) : (operandField W p).toNat = p.toNat % 2 ^ W := by
  simp [operandField]

theorem resultField_toNat {N : Nat} (hN : N ≤ 256) (r : BitVec N) : (resultField r).toNat = r.toNat := by
  simp only [resultField, BitVec.toNat_setWidth]
  exact Nat.mod_eq_of_lt (Nat.lt_of_lt_of_le r.isLt (Nat.pow_le_pow_right (by omega) hN))

/-- `SPLIT_W`: `v = high * 2^W + low` (R80). -/
theorem split_toNat (W : Nat) (v : BitVec (2 * W)) :
    (split W v).low.toNat + 2 ^ W * (split W v).high.toNat = v.toNat := by
  have h : v.toNat / 2 ^ W < 2 ^ W :=
    Nat.div_lt_of_lt_mul (Nat.lt_of_lt_of_eq v.isLt (by rw [Nat.two_mul, Nat.pow_add]))
  simp only [split, BitVec.extractLsb'_toNat, Nat.shiftRight_eq_div_pow, Nat.mod_eq_of_lt h, Nat.pow_zero, Nat.div_one]
  exact Nat.mod_add_div _ _

/-- `JOIN_W`: `v = high * 2^W + low` (R81). -/
theorem join_toNat (W : Nat) (p : Limbs W) : (join W p).toNat = p.low.toNat + 2 ^ W * p.high.toNat := by
  have hl := p.low.isLt
  have hh := p.high.isLt
  have hle : 2 ^ W ≤ 2 ^ (2 * W) := Nat.pow_le_pow_right (by omega) (by omega)
  have hlt : p.high.toNat * 2 ^ W < 2 ^ (2 * W) := by
    rw [Nat.two_mul, Nat.pow_add]
    exact Nat.mul_lt_mul_of_pos_right hh (Nat.two_pow_pos W)
  simp only [join, BitVec.toNat_or, BitVec.toNat_shiftLeft, BitVec.toNat_setWidth, Nat.shiftLeft_eq,
    Nat.mod_eq_of_lt (Nat.lt_of_lt_of_le hl hle), Nat.mod_eq_of_lt (Nat.lt_of_lt_of_le hh hle), Nat.mod_eq_of_lt hlt]
  rw [Nat.mul_comm p.high.toNat, ← Nat.two_pow_add_eq_or_of_lt hl, Nat.add_comm]

/-- `ADD_W`: `x + y = k * 2^W + s` (R82). -/
theorem addW_toNat {W : Nat} (x y : BitVec W) :
    (addW x y).s.toNat + 2 ^ W * (addW x y).k.toNat = x.toNat + y.toNat := by
  have hx := x.isLt
  have hy := y.isLt
  have hadd := BitVec.toNat_add x y
  simp only [addW, BitVec.ult]
  by_cases h : x.toNat + y.toNat < 2 ^ W
  · rw [Nat.mod_eq_of_lt h] at hadd
    have hn : ¬ (x + y).toNat < x.toNat := by omega
    rw [decide_eq_false hn, hadd]; simp
  · rw [Nat.mod_eq_sub_mod (by omega), Nat.mod_eq_of_lt (by omega)] at hadd
    have hp : (x + y).toNat < x.toNat := by omega
    rw [decide_eq_true hp, hadd]; simp; omega

/-- The carry of `ADD_W` is the part of the exact sum above bit `W-1` (R82). -/
theorem addW_carry {W : Nat} (x y : BitVec W) : (addW x y).k.toNat = (x.toNat + y.toNat) / 2 ^ W := by
  rw [← addW_toNat x y, Nat.add_mul_div_left _ _ (Nat.two_pow_pos W), Nat.div_eq_of_lt (addW x y).s.isLt, Nat.zero_add]

/-- `ADC_W`: `x + y + cin = k * 2^W + s` (R83). -/
theorem adcW_toNat {W : Nat} (hW : 0 < W) (x y : BitVec W) (cin : Bool) :
    (adcW x y cin).s.toNat + 2 ^ W * (adcW x y cin).k.toNat = x.toNat + y.toNat + cin.toNat := by
  have h1 := addW_toNat x y
  have h2 := addW_toNat (addW x y).s (bitValue W cin)
  have hx := x.isLt
  have hy := y.isLt
  have hs := (addW (addW x y).s (bitValue W cin)).s.isLt
  have hc := Bool.toNat_lt cin
  rw [bitValue_toNat hW] at h2
  simp only [adcW]
  cases hk1 : (addW x y).k <;> cases hk2 : (addW (addW x y).s (bitValue W cin)).k <;>
    simp only [hk1, hk2, Bool.toNat_false, Bool.toNat_true, Bool.or_self, Bool.or_true, Bool.or_false,
      Nat.mul_zero, Nat.mul_one] at h1 h2 ⊢ <;> omega

/-- `SUB_W`: `x - y = d - w * 2^W` (R85), written without subtraction. -/
theorem subW_toNat {W : Nat} (x y : BitVec W) :
    (subW x y).d.toNat + y.toNat = x.toNat + 2 ^ W * (subW x y).w.toNat := by
  have hx := x.isLt
  have hy := y.isLt
  simp only [subW, BitVec.ult, BitVec.toNat_sub]
  by_cases h : x.toNat < y.toNat
  · rw [decide_eq_true h, Nat.mod_eq_of_lt (by omega)]; simp; omega
  · rw [decide_eq_false h, Nat.mod_eq_sub_mod (by omega), Nat.mod_eq_of_lt (by omega)]; simp; omega

/-- `SBB_W`: `x - y - win = d - w * 2^W` (R86), written without subtraction. -/
theorem sbbW_toNat {W : Nat} (hW : 0 < W) (x y : BitVec W) (win : Bool) :
    (sbbW x y win).d.toNat + y.toNat + win.toNat = x.toNat + 2 ^ W * (sbbW x y win).w.toNat := by
  have h1 := subW_toNat x y
  have h2 := subW_toNat (subW x y).d (bitValue W win)
  have hx := x.isLt
  have hy := y.isLt
  have hs := (subW (subW x y).d (bitValue W win)).d.isLt
  have hd := (subW x y).d.isLt
  have hc := Bool.toNat_lt win
  rw [bitValue_toNat hW] at h2
  simp only [sbbW]
  cases hk1 : (subW x y).w <;> cases hk2 : (subW (subW x y).d (bitValue W win)).w <;>
    simp only [hk1, hk2, Bool.toNat_false, Bool.toNat_true, Bool.or_self, Bool.or_true, Bool.or_false,
      Nat.mul_zero, Nat.mul_one] at h1 h2 ⊢ <;> omega

/-- The exact sum of two limbs in `W+1` bits. -/
theorem wideSum_toNat {W : Nat} (x y : BitVec W) : (wideSum x y).toNat = x.toNat + y.toNat := by
  rw [← addW_toNat x y, wideSum, BitVec.toNat_cons, Nat.shiftLeft_eq, Nat.mul_comm _ (2 ^ W),
    ← Nat.two_pow_add_eq_or_of_lt (addW x y).s.isLt, Nat.add_comm]

/-- `MUL_n`: the exact product (R88). -/
theorem mulN_toNat {n : Nat} (x y : BitVec n) : (mulN x y).toNat = x.toNat * y.toNat := by
  have hle : 2 ^ n ≤ 2 ^ (2 * n) := Nat.pow_le_pow_right (by omega) (by omega)
  have hlt : x.toNat * y.toNat < 2 ^ (2 * n) := by
    rw [Nat.two_mul, Nat.pow_add]
    exact Nat.mul_lt_mul'' x.isLt y.isLt
  simp only [mulN, BitVec.toNat_mul, BitVec.toNat_setWidth, Nat.mod_eq_of_lt (Nat.lt_of_lt_of_le x.isLt hle),
    Nat.mod_eq_of_lt (Nat.lt_of_lt_of_le y.isLt hle), Nat.mod_eq_of_lt hlt]

/-- A widened `W`-bit value, shifted into place in `n` bits. -/
theorem shifted_toNat {W n : Nat} (x : BitVec W) (hW : W ≤ n) (j : Nat) :
    (x.setWidth n <<< j).toNat = 2 ^ j * x.toNat % 2 ^ n := by
  rw [BitVec.toNat_shiftLeft, BitVec.toNat_setWidth, Nat.shiftLeft_eq, Nat.mul_comm,
    Nat.mod_eq_of_lt (Nat.lt_of_lt_of_le x.isLt (Nat.pow_le_pow_right (by omega) hW))]

/-- `WMUL_W` for any multiplier `M`: the place-value sum of its four parts mod `2^(2W+2)` (R89). -/
theorem wmul_toNat (W : Nat) (M : BitVec W → BitVec W → BitVec (2 * W)) (sa sb : BitVec (W + 1)) :
    (wmul W M sa sb).toNat =
      ((M (sa.extractLsb' 0 W) (sb.extractLsb' 0 W)).toNat
        + 2 ^ W * ((if sa.getLsbD W then (sb.extractLsb' 0 W).toNat else 0)
          + (if sb.getLsbD W then (sa.extractLsb' 0 W).toNat else 0))
        + 2 ^ (2 * W) * (sa.getLsbD W && sb.getLsbD W).toNat) % 2 ^ (2 * W + 2) := by
  have ite_toNat (k : Bool) (x : BitVec W) : (if k then x else 0#W).toNat = if k then x.toNat else 0 := by
    cases k <;> simp
  have hle : 2 ^ W ≤ 2 ^ (2 * W + 2) := Nat.pow_le_pow_right (by omega) (by omega)
  simp only [wmul, bitValue, BitVec.toNat_add, BitVec.toNat_shiftLeft, BitVec.toNat_setWidth, Nat.shiftLeft_eq, ite_toNat,
    BitVec.toNat_ofBool, Nat.add_mod_mod, Nat.mod_add_mod, Nat.mod_mul_mod, Nat.mul_comm (2 ^ _)]

/-- `MIDSUB_W` on a middle term of `2W+1` bits: the pair `(mid, mc)` is `m - z0 - z2` exactly (R91). -/
theorem midSub_toNat (W : Nat) (m : BitVec (2 * W + 2)) (z0 z2 : BitVec (2 * W))
    (hle : z0.toNat + z2.toNat ≤ m.toNat) (hlt : m.toNat - z0.toNat - z2.toNat < 2 ^ (2 * W + 1)) :
    (midSub W m z0 z2).s.toNat + 2 ^ (2 * W) * (midSub W m z0 z2).k.toNat = m.toNat - z0.toNat - z2.toNat := by
  have h1 := subW_toNat (m.extractLsb' 0 (2 * W)) z0
  have h2 := subW_toNat (subW (m.extractLsb' 0 (2 * W)) z0).d z2
  have hd := (subW (subW (m.extractLsb' 0 (2 * W)) z0).d z2).d.isLt
  have hm : (m.extractLsb' 0 (2 * W)).toNat + 2 ^ (2 * W) * (m.extractLsb' (2 * W) 2).toNat = m.toNat := by
    have hq : m.toNat / 2 ^ (2 * W) < 2 ^ 2 :=
      Nat.div_lt_of_lt_mul (Nat.lt_of_lt_of_eq m.isLt (by rw [Nat.pow_add]))
    simp only [BitVec.extractLsb'_toNat, Nat.shiftRight_eq_div_pow, Nat.mod_eq_of_lt hq, Nat.pow_zero, Nat.div_one]
    exact Nat.mod_add_div _ _
  rw [Nat.pow_succ] at hlt
  simp only [midSub]
  generalize hmh : m.extractLsb' (2 * W) 2 = mh at hm
  generalize (subW (subW (m.extractLsb' 0 (2 * W)) z0).d z2).w = w2 at h2 ⊢
  generalize (subW (subW (m.extractLsb' 0 (2 * W)) z0).d z2).d.toNat = d2 at h2 hd ⊢
  generalize (subW (m.extractLsb' 0 (2 * W)) z0).w = w1 at h1 ⊢
  generalize 2 ^ (2 * W) = P at *
  have key : d2 + P * (mh.toNat - w1.toNat - w2.toNat) = m.toNat - z0.toNat - z2.toNat
      ∧ mh.toNat - w1.toNat - w2.toNat ≤ 1 ∧ w1.toNat + w2.toNat ≤ mh.toNat := by
    have := mh.isLt
    rcases (by omega : mh.toNat = 0 ∨ mh.toNat = 1 ∨ mh.toNat = 2 ∨ mh.toNat = 3) with h | h | h | h <;>
      cases w1 <;> cases w2 <;> simp [h] at * <;> omega
  have hbit : ∀ (mh : BitVec 2) (w1 w2 : Bool), mh.toNat - w1.toNat - w2.toNat ≤ 1 → w1.toNat + w2.toNat ≤ mh.toNat →
      ((mh - bitValue 2 w1 - bitValue 2 w2).getLsbD 0).toNat = mh.toNat - w1.toNat - w2.toNat := by decide
  rw [hbit mh w1 w2 key.2.1 key.2.2, key.1]

/-- The low half of `RECOMB_W`: `z0` and the low limb of the middle term, wrapped (R92). -/
theorem recomb_low_toNat (W : Nat) (z0 : BitVec (2 * W)) (mid : CarrySum (2 * W)) (z2 : BitVec (2 * W)) :
    (recomb W z0 mid z2).low.toNat = (z0.toNat + 2 ^ W * (mid.s.toNat % 2 ^ W)) % 2 ^ (2 * W) := by
  simp only [recomb, addW, BitVec.toNat_add, shifted_toNat _ (by omega : W ≤ 2 * W), BitVec.extractLsb'_toNat,
    Nat.shiftRight_eq_div_pow, Nat.pow_zero, Nat.div_one, Nat.add_mod_mod]

/-- The high half of `RECOMB_W`: `z2`, the high limb of the middle term, and the two carries in their places, wrapped
(R92). -/
theorem recomb_high_toNat (W : Nat) (z0 : BitVec (2 * W)) (mid : CarrySum (2 * W)) (z2 : BitVec (2 * W)) :
    (recomb W z0 mid z2).high.toNat =
      (z2.toNat + mid.s.toNat / 2 ^ W + 2 ^ W * mid.k.toNat
        + (z0.toNat + 2 ^ W * (mid.s.toNat % 2 ^ W)) / 2 ^ (2 * W)) % 2 ^ (2 * W) := by
  have hhi : mid.s.toNat / 2 ^ W < 2 ^ W :=
    Nat.div_lt_of_lt_mul (Nat.lt_of_lt_of_eq mid.s.isLt (by rw [Nat.two_mul, Nat.pow_add]))
  have hlow : (z0.toNat + ((mid.s.extractLsb' 0 W).setWidth (2 * W) <<< W).toNat)
      = z0.toNat + 2 ^ W * (mid.s.toNat % 2 ^ W) := by
    rw [shifted_toNat _ (by omega : W ≤ 2 * W), BitVec.extractLsb'_toNat, Nat.shiftRight_zero, Nat.mod_eq_of_lt]
    exact Nat.lt_of_lt_of_eq (Nat.mul_lt_mul_of_pos_left (Nat.mod_lt _ (Nat.two_pow_pos W)) (Nat.two_pow_pos W))
      (by rw [Nat.two_mul, Nat.pow_add])
  have hsw : ((mid.s.extractLsb' W W).setWidth (2 * W)).toNat = mid.s.toNat / 2 ^ W := by
    rw [BitVec.toNat_setWidth, BitVec.extractLsb'_toNat, Nat.shiftRight_eq_div_pow, Nat.mod_eq_of_lt hhi,
      Nat.mod_eq_of_lt (Nat.lt_of_lt_of_le hhi (Nat.pow_le_pow_right (by omega) (by omega)))]
  have hmc : (bitValue (2 * W) mid.k <<< W).toNat = 2 ^ W * mid.k.toNat % 2 ^ (2 * W) := by
    rw [BitVec.toNat_shiftLeft, bitValue_toNat_mod, Nat.shiftLeft_eq, Nat.mod_mul_mod, Nat.mul_comm]
  simp only [recomb, BitVec.toNat_add, hsw, hmc, bitValue_toNat_mod, addW_carry, hlow, Nat.add_mod_mod, Nat.mod_add_mod]

/-- The low half of `ACC_N` (R93). -/
theorem acc_low_toNat {N : Nat} (p : Limbs N) (c : BitVec N) :
    (acc p c).low.toNat = (p.low.toNat + c.toNat) % 2 ^ N := by
  simp [acc, addW]

/-- The high half of `ACC_N`: the carry of the low half is added, wrapped (R93). -/
theorem acc_high_toNat {N : Nat} (p : Limbs N) (c : BitVec N) :
    (acc p c).high.toNat = (p.high.toNat + (p.low.toNat + c.toNat) / 2 ^ N) % 2 ^ N := by
  simp only [acc, BitVec.toNat_add, bitValue_toNat_mod, Nat.add_mod_mod, addW_carry]

end Sys2Proof.Machine
end

