-- ==== Sys2Proof/Laws/PerInstr.lean ====
section
/-! SUPPORT. The family EncodeWellFormed: the command that asks for an operation is one the driver may issue. -/

namespace Sys2Proof.Laws.EncodeWellFormed

/-- The encoding of an operation is a well-formed command (30_encoding.md R60, R61, R64). -/
def Statement (i : Instr) : Prop := (encode i).wellFormed = true

/-- An operand of at most 256 bits, laid on its port, keeps its width. -/
theorem operandOnPort_lt {W : Nat} (hW : W ≤ 256) (v : BitVec W) : (Machine.operandOnPort v).toNat < 2 ^ W := by
  have hv : v.toNat < 2 ^ 256 := Nat.lt_of_lt_of_le v.isLt (Nat.pow_le_pow_right (by omega) hW)
  simpa only [Machine.operandOnPort, BitVec.toNat_setWidth, Nat.mod_eq_of_lt hv] using v.isLt

/-- A command whose `op` selects a width and whose operands fit it is well-formed. -/
theorem wellFormed_of {k : Command} {w : Width} (hw : Machine.opWidth k.op = some w) (ha : k.a.toNat < 2 ^ w.bits)
    (hb : k.b.toNat < 2 ^ w.bits) (hc : k.c.toNat < 2 ^ w.bits) : k.wellFormed = true := by
  simp [Command.wellFormed, hw, ha, hb, hc]

theorem madd64S (a b c : Word64) : Statement (.madd64S a b c) :=
  wellFormed_of (opWidth_opSelect .w64 .schoolbook) (operandOnPort_lt (by decide) a) (operandOnPort_lt (by decide) b)
    (operandOnPort_lt (by decide) c)

theorem madd64K (a b c : Word64) : Statement (.madd64K a b c) :=
  wellFormed_of (opWidth_opSelect .w64 .karatsuba) (operandOnPort_lt (by decide) a) (operandOnPort_lt (by decide) b)
    (operandOnPort_lt (by decide) c)

theorem madd128S (a b c : Word128) : Statement (.madd128S a b c) :=
  wellFormed_of (opWidth_opSelect .w128 .schoolbook) (operandOnPort_lt (by decide) a) (operandOnPort_lt (by decide) b)
    (operandOnPort_lt (by decide) c)

theorem madd128K (a b c : Word128) : Statement (.madd128K a b c) :=
  wellFormed_of (opWidth_opSelect .w128 .karatsuba) (operandOnPort_lt (by decide) a) (operandOnPort_lt (by decide) b)
    (operandOnPort_lt (by decide) c)

theorem madd256S (a b c : Word256) : Statement (.madd256S a b c) :=
  wellFormed_of (opWidth_opSelect .w256 .schoolbook) (operandOnPort_lt (by decide) a) (operandOnPort_lt (by decide) b)
    (operandOnPort_lt (by decide) c)

theorem madd256K (a b c : Word256) : Statement (.madd256K a b c) :=
  wellFormed_of (opWidth_opSelect .w256 .karatsuba) (operandOnPort_lt (by decide) a) (operandOnPort_lt (by decide) b)
    (operandOnPort_lt (by decide) c)

end Sys2Proof.Laws.EncodeWellFormed
end

