-- ==== Sys2Proof/Laws/State.lean ====
section
/-! SUPPORT. One lemma per field per operation on State, Run and Bench, and the case lemma of a step. -/

namespace Sys2Proof.Machine

@[simp] theorem reset_issued : State.reset.issued = [] := rfl
@[simp] theorem reset_returned : State.reset.returned = [] := rfl

@[simp] theorem issue_issued (s : State) (k : Command) : (s.issue k).issued = s.issued ++ [k] := rfl
@[simp] theorem issue_returned (s : State) (k : Command) : (s.issue k).returned = s.returned := rfl

@[simp] theorem returnResult_issued (s : State) (i : Instr) (r : Word256) :
    (s.returnResult i r).issued = s.issued := rfl
@[simp] theorem returnResult_returned (s : State) (i : Instr) (r : Word256) :
    (s.returnResult i r).returned = s.returned ++ [⟨i, r⟩] := rfl

@[simp] theorem placeTableWord_issued (s : State) (nbits w : Nat) :
    (s.placeTableWord nbits w).issued = commandOfTableWord nbits w :: s.issued := rfl
@[simp] theorem placeTableWord_returned (s : State) (nbits w : Nat) :
    (s.placeTableWord nbits w).returned = s.returned := rfl

@[simp] theorem drive_machine (b : Bench) (p : Command) : (b.drive p).machine = b.machine := rfl
@[simp] theorem drive_ports (b : Bench) (p : Command) : (b.drive p).ports = p := rfl
@[simp] theorem issue_ports (b : Bench) : b.issue.ports = b.ports := rfl
@[simp] theorem issue_machine (b : Bench) : b.issue.machine = b.machine.issue b.ports := rfl

@[simp] theorem steps_zero (r : Run) : Run.steps 0 r = r := rfl
@[simp] theorem steps_succ (n : Nat) (r : Run) : Run.steps (n + 1) r = Run.steps n r.step := rfl

/-- With no other command in progress, issuing a command and waiting for it is one step. -/
theorem issueAndWait_idle {s : State} (h : s.issued = []) (k : Command) :
    issueAndWait s k = Run.step ⟨s.issue k, none⟩ := by
  simp [issueAndWait, h]

/-- `take` answers nothing exactly when no command is in progress. -/
theorem take_none {s : State} (h : s.issued = []) : s.take = none := by
  simp [State.take, h]

/-- `take` removes the oldest command in progress and changes nothing else. -/
theorem take_cons {s : State} {k : Command} {rest : List Command} (h : s.issued = k :: rest) :
    s.take = some (k, { s with issued := rest }) := by
  simp [State.take, h]

/-- What a meaning can do: it returns one value for its operation and leaves the commands in progress alone. -/
theorem exec_next_cases (i : Instr) (s : State) : ∃ r : Word256, exec i s = .next (s.returnResult i r) := by
  cases i <;> exact ⟨_, rfl⟩

/-- What a step that answers a next state can do: nothing, with no command in progress; or take the oldest command,
decode it, and execute its operation on the state without it. -/
theorem step_next_cases {s t : State} (h : step s = .next t) :
    (s.issued = [] ∧ t = s) ∨
    ∃ k rest i, s.issued = k :: rest ∧ decode k = .ok i ∧ exec i { s with issued := rest } = .next t := by
  cases hs : s.issued with
  | nil =>
    rw [step, take_none hs] at h
    exact .inl ⟨rfl, by injection h with h; exact h.symm⟩
  | cons k rest =>
    rw [step, take_cons hs] at h
    cases hd : decode k with
    | ok i => exact .inr ⟨k, rest, i, rfl, hd, by simpa [hd] using h⟩
    | error e => cases e; simp [hd] at h

end Sys2Proof.Machine
end

