-- ==== Sys2Proof/Tests/Slice0.lean ====
section
/-! SUPPORT. The model's own tests. Expected values come from 95_test_vectors.md (the section stands in the comment) or from
30_encoding.md R61; none was taken from the model. The theorems named `witness_…` show operands or states that meet the
hypotheses of an obligation, clause by clause. -/

namespace Sys2Proof.Tests

open Sys2Proof.Machine

/-- A machine with one command in progress. -/
def one (op : BitVec 3) (a b c : Word256) : State := ⟨[⟨op, a, b, c⟩], []⟩

/-- The values returned in a next state. -/
def values : Host.Outcome State Fault Refusal → Option (List Word256)
  | .next s => some (s.returned.map Returned.r)
  | .fault _ => none
  | .refused _ => none

/-- The reason of a refusal. -/
def reason : Host.Outcome State Fault Refusal → Option Refusal
  | .next _ => none
  | .fault _ => none
  | .refused why => some why

/-- The instruction a command decodes to. -/
def decoded (k : Command) : Option Instr :=
  match decode k with
  | .ok i => some i
  | .error _ => none

/-- All ones, at each width. -/
abbrev ones64 : Word64 := 0xffffffffffffffff#64
abbrev ones128 : Word128 := 0xffffffffffffffffffffffffffffffff#128
abbrev ones256 : Word256 := 0xffffffffffffffffffffffffffffffffffffffffffffffffffffffffffffffff#256

/-! ### Decoding: R61's table, bit by bit; operand bits above the width are dropped (R64) -/

theorem test_decode_000 : decoded ⟨0b000#3, 1, 2, 3⟩ = some (.madd64S 1 2 3) := by decide
theorem test_decode_001 : decoded ⟨0b001#3, 1, 2, 3⟩ = some (.madd64K 1 2 3) := by decide
theorem test_decode_010 : decoded ⟨0b010#3, 1, 2, 3⟩ = some (.madd128S 1 2 3) := by decide
theorem test_decode_011 : decoded ⟨0b011#3, 1, 2, 3⟩ = some (.madd128K 1 2 3) := by decide
theorem test_decode_100 : decoded ⟨0b100#3, 1, 2, 3⟩ = some (.madd256S 1 2 3) := by decide
theorem test_decode_101 : decoded ⟨0b101#3, 1, 2, 3⟩ = some (.madd256K 1 2 3) := by decide
theorem test_decode_110_reserved : decoded ⟨0b110#3, 1, 2, 3⟩ = none := by decide
theorem test_decode_111_reserved : decoded ⟨0b111#3, 1, 2, 3⟩ = none := by decide
theorem test_decode_drops_bits_above_64 :
    decoded ⟨0b000#3, 0x10000000000000005#256, ones256, 0x8000000000000000#256⟩
      = some (.madd64S 5 ones64 0x8000000000000000#64) := by decide
theorem test_encode_words :
    [encode (.madd64S 1 2 3), encode (.madd64K 1 2 3), encode (.madd128S 1 2 3), encode (.madd128K 1 2 3),
      encode (.madd256S 1 2 3), encode (.madd256K 1 2 3)].map Command.op
      = [0b000#3, 0b001#3, 0b010#3, 0b011#3, 0b100#3, 0b101#3] := by decide

/-! ### WellFormed: an ill-formed term for each check -/

theorem test_ill_formed_reserved_op : (Command.mk 0b110#3 3 5 7).wellFormed = false := by decide
theorem test_ill_formed_a_too_wide : (Command.mk 0b000#3 0x10000000000000000#256 0 0).wellFormed = false := by decide
theorem test_ill_formed_b_too_wide : (Command.mk 0b001#3 0 0x10000000000000000#256 0).wellFormed = false := by decide
theorem test_ill_formed_c_too_wide :
    (Command.mk 0b010#3 0 0 0x100000000000000000000000000000000#256).wellFormed = false := by decide
theorem test_ill_formed_literal : (Source.lit (2 ^ 64)).wellFormed [] 64 = false := by decide
theorem test_ill_formed_unbound_names :
    [Source.res 0, Source.lo 0, Source.hi 0].map (Source.wellFormed [(1, .w64)] 256) = [false, false, false] := by decide
theorem test_ill_formed_result_too_wide : (Source.res 0).wellFormed [(0, .w64)] 64 = false := by decide
theorem test_ill_formed_halves_too_wide :
    [Source.lo 0, Source.hi 0].map (Source.wellFormed [(0, .w128)] 64) = [false, false] := by decide
theorem test_ill_formed_madd_lines :
    [Line.madd .w64 .schoolbook 1 (.res 0) (.lit 0) (.lit 0), .madd .w64 .schoolbook 1 (.lit 0) (.res 0) (.lit 0),
      .madd .w64 .schoolbook 1 (.lit 0) (.lit 0) (.res 0)].map (Line.wellFormed []) = [false, false, false] := by decide
theorem test_ill_formed_mul_lines :
    [Line.mul .w64 .karatsuba 1 (.res 0) (.lit 0), .mul .w64 .karatsuba 1 (.lit 0) (.res 0)].map (Line.wellFormed [])
      = [false, false] := by decide
theorem test_ill_formed_raw_line : (Line.raw 0b000#3 1 (.lit 0) (.lit 0) (.lit 0)).wellFormed [] = false := by decide
theorem test_ill_formed_listing :
    Listing.wellFormed [] [.mul .w64 .schoolbook 0 (.lit 3) (.lit 5), .mul .w64 .schoolbook 1 (.lo 7) (.lit 5)]
      = false := by decide

/-! ### The sub-blocks (95_test_vectors.md section 2.1) -/

theorem test_add_carries : addW ones64 1#64 = ⟨0#64, true⟩ := by decide
theorem test_adc_all_ones : adcW ones64 ones64 true = ⟨ones64, true⟩ := by decide
theorem test_addn_ripples : addN [(ones64, 1#64), (ones64, 0#64)] = ([0#64, 0#64], true) := by decide
theorem test_sub_borrows : subW 1#64 2#64 = ⟨ones64, true⟩ := by decide
theorem test_sbb_second_borrow : sbbW 5#64 5#64 true = ⟨ones64, true⟩ := by decide
theorem test_sbb_no_borrow : sbbW 5#64 4#64 true = ⟨0#64, false⟩ := by decide
theorem test_mul_32 : mulN 0x9abcdef0#32 0x87654321#32 = (0x51d6cea7e5618cf0#64 : BitVec (2 * 32)) := by decide
theorem test_wmul_32_both_carries : wmul 32 mulN 0x1fffffffe#33 0x1fffffffe#33 = 0x3fffffff800000004#66 := by decide
theorem test_wmul_32_one_carry : wmul 32 mulN 0x1fffffffe#33 0x000000001#33 = 0x1fffffffe#66 := by decide
theorem test_midsum_64 :
    midSum 64 0xfffffffffffffffe0000000000000001#128 0xfffffffffffffffe0000000000000001#128
      = ⟨0xfffffffffffffffc0000000000000002#128, true⟩ := by decide
theorem test_midsub_32_carry :
    midSub 32 0x3fffffff800000004#66 0xfffffffe00000001#64 0xfffffffe00000001#64
      = ⟨0xfffffffc00000002#64, true⟩ := by decide
theorem test_midsub_32_borrow :
    midSub 32 0x10000000000000000#66 0x00000000ffffffff#64 0x00000000ffffffff#64
      = ⟨0xfffffffe00000002#64, false⟩ := by decide
theorem test_recomb_32 :
    recomb 32 0x51d6cea7e5618cf0#64 ⟨0x13419a09d06009e8#64, false⟩ 0x0121fa009a363d38#64
      = ⟨0x2236d88fe5618cf0#64, 0x0121fa00ad77d742#64⟩ := by decide
theorem test_recomb_64_carries :
    recomb 64 0xfffffffffffffffe0000000000000001#128 ⟨0xfffffffffffffffc0000000000000002#128, true⟩
      0xfffffffffffffffe0000000000000001#128 = ⟨1#128, 0xfffffffffffffffffffffffffffffffe#128⟩ := by decide
theorem test_acc_64 : acc ⟨1#64, 0xfffffffffffffffe#64⟩ ones64 = ⟨0#64, ones64⟩ := by decide

/-! ### One step of each operation (95_test_vectors.md sections 1.1, 1.2, 2.2 to 2.5) -/

/-- Section 1.1, the source's concrete scenario. -/
theorem test_madd64S_source_scenario :
    values (step (one 0b000#3 0x123456789abcdef0#256 0x0fedcba987654321#256 0x1111111111111111#256))
      = some [0x0121fa00ad77d7423347e9a0f6729e01#256] := by decide
/-- Section 2.2, "carry from adding c". -/
theorem test_madd64S_carry_from_c :
    values (step (one 0b000#3 0xffffffffffffffff#256 1 1)) = some [0x10000000000000000#256] := by decide
/-- Section 2.2, "strong probe, smallest halves": the narrow middle term would fail here (R182). -/
theorem test_madd64K_strong_probe :
    values (step (one 0b001#3 0xb504f334b504f334#256 0xb504f334b504f334#256 0))
      = some [0x8000000108abc2909157852008abc290#256] := by decide
/-- Section 2.2, "general": joining the overlapping fields by OR would fail here (R184). -/
theorem test_madd64K_general :
    values (step (one 0b001#3 0xdeadbeefcafef00d#256 0x0123456789abcdef#256 0xfedcba9876543210#256))
      = some [0x00fd5bdeeeb2a05b24d41f016e3fb733#256] := by decide
/-- Section 2.3, "general". -/
theorem test_madd128S_general :
    values (step (one 0b010#3 0x0123456789abcdeffedcba9876543210#256 0x0f1e2d3c4b5a69788796a5b4c3d2e1f0#256
      0xdeadbeefcafef00d0123456789abcdef#256))
      = some [0x00113366ab0066de65dc4195d90b2c3d19c6a49116e45df2601ceac9b9baccef#256] := by decide
/-- Section 2.3, "mixed limbs". -/
theorem test_madd128S_mixed_limbs :
    values (step (one 0b010#3 0xffffffffffffffff0000000000000001#256 0x0000000000000001ffffffffffffffff#256
      0x80000000000000000000000000000000#256))
      = some [0x0000000000000001fffffffffffffffd8000000000000002ffffffffffffffff#256] := by decide
/-- Section 2.3, "all ones". -/
theorem test_madd128K_all_ones :
    values (step (one 0b011#3 0xffffffffffffffffffffffffffffffff#256 0xffffffffffffffffffffffffffffffff#256
      0xffffffffffffffffffffffffffffffff#256))
      = some [0xffffffffffffffffffffffffffffffff00000000000000000000000000000000#256] := by decide
/-- Section 2.3, "general". -/
theorem test_madd128K_general :
    values (step (one 0b011#3 0x0123456789abcdeffedcba9876543210#256 0x0f1e2d3c4b5a69788796a5b4c3d2e1f0#256
      0xdeadbeefcafef00d0123456789abcdef#256))
      = some [0x00113366ab0066de65dc4195d90b2c3d19c6a49116e45df2601ceac9b9baccef#256] := by decide
/-- Section 2.4, "general". -/
theorem test_madd256S_general :
    values (step (one 0b100#3 0x0123456789abcdeffedcba98765432100f1e2d3c4b5a69788796a5b4c3d2e1f0#256
      0xdeadbeefcafef00d0123456789abcdef112233445566778899aabbccddeeff00#256
      0xffffffffffffffff000000000000000180000000000000007fffffffffffffff#256))
      = some [0xf8368bb3de3b4a60d6b31b53a0458789e755422e1902ebd43aa085694c2e0fff#256] := by decide
/-- Section 2.4, "c alone wraps". -/
theorem test_madd256S_c_wraps :
    values (step (one 0b100#3 3 5 0xfffffffffffffffffffffffffffffffffffffffffffffffffffffffffffffff1#256))
      = some [0#256] := by decide
/-- Section 2.4, "general". -/
theorem test_madd256K_general :
    values (step (one 0b101#3 0x0123456789abcdeffedcba98765432100f1e2d3c4b5a69788796a5b4c3d2e1f0#256
      0xdeadbeefcafef00d0123456789abcdef112233445566778899aabbccddeeff00#256
      0xffffffffffffffff000000000000000180000000000000007fffffffffffffff#256))
      = some [0xf8368bb3de3b4a60d6b31b53a0458789e755422e1902ebd43aa085694c2e0fff#256] := by decide
/-- Section 2.4, "low limbs only, c wraps". -/
theorem test_madd256K_low_limbs_c_wraps :
    values (step (one 0b101#3 0xffffffffffffffffffffffffffffffff#256 0xffffffffffffffffffffffffffffffff#256 ones256))
      = some [0xfffffffffffffffffffffffffffffffe00000000000000000000000000000000#256] := by decide
/-- Section 2.5, the reserved values beside the nearest accepted command. -/
theorem test_reserved_110_refused : reason (step (one 0b110#3 3 5 7)) = some (.reservedOp 0b110#3) := by decide
theorem test_reserved_111_refused : reason (step (one 0b111#3 3 5 7)) = some (.reservedOp 0b111#3) := by decide

/-- Section 2.2, the column `narrow` at "strong probe, c = 0": the false variant the model must not be (R182). -/
theorem test_narrow_variant_is_wrong :
    join 64 (recomb 32 (mulN 0xffffffff#32 0xffffffff#32) ⟨0xfffffffc00000002#64, false⟩
      (mulN 0xffffffff#32 0xffffffff#32)) = (0xfffffffefffffffe0000000000000001#128 : BitVec (2 * 64)) := by decide

/-! ### Listings (95_test_vectors.md sections 3.1, 3.2, 3.4) -/

/-- Program 1, line 1. -/
theorem test_listing_line :
    runListing [.madd .w64 .schoolbook 0 (.lit 0x123456789abcdef0) (.lit 0x0fedcba987654321) (.lit 0x1111111111111111)]
      [] State.reset
      = .finished [⟨0, .w64, 0x0121fa00ad77d7423347e9a0f6729e01#256⟩]
        ⟨[], [⟨.madd64S 0x123456789abcdef0#64 0x0fedcba987654321#64 0x1111111111111111#64,
          0x0121fa00ad77d7423347e9a0f6729e01#256⟩]⟩ := by decide
/-- Program 2, line 2: `t0.hi` is bits 127:64 of `t0`. -/
theorem test_listing_half :
    lineCommand [⟨0, .w64, 0x86fc60b3f62747555ef9a562300eff00#256⟩]
      (.madd .w64 .schoolbook 1 (.lit 0x0123456789abcdef) (.lit 0x8796a5b4c3d2e1f0) (.hi 0))
      = some ⟨0b000#3, 0x0123456789abcdef#256, 0x8796a5b4c3d2e1f0#256, 0x86fc60b3f6274755#256⟩ := by decide
/-- Program 4, command 5. -/
theorem test_listing_refused :
    runListing [.raw 0b110#3 4 (.lit 3) (.lit 5) (.lit 7)] [] State.reset = .refused (.reservedOp 0b110#3) := by decide
/-- A name that no line has bound yet stops the listing (log 11). -/
theorem test_listing_unbound :
    runListing [.mul .w64 .schoolbook 0 (.lo 7) (.lit 1)] [] State.reset
      = .unbound (.mul .w64 .schoolbook 0 (.lo 7) (.lit 1)) := by decide
/-- Section 2.5, "3*5 + 7 = 22": with another command in progress, the name stands for the line's own result (log 15). -/
theorem test_listing_waits :
    (match runListing [.madd .w256 .karatsuba 0 (.lit 3) (.lit 5) (.lit 7)] [] (one 0b000#3 0 0 0) with
      | .finished env _ => some (env.map Binding.r)
      | .refused _ => none
      | .unbound _ => none) = some [0x16#256] := by decide
/-- Section 2.5: a run with a reserved command has no outcome; the nearest accepted command has one. -/
theorem test_run_outcomes :
    runOutcome [⟨0b101#3, 3, 5, 7⟩] = some [0x16#256] ∧ runOutcome [⟨0b110#3, 3, 5, 7⟩] = none := by decide

/-! ### Witnesses of the obligations' hypotheses -/

/-- LimbAdderCarriesExactly, CarryChainIsWideAddition, LimbSubtractorBorrowsExactly, BorrowChainIsWideSubtraction: the least
width, and the smallest list of the chains. -/
theorem witness_least_width : 0 < 1 ∧ (addW 1#1 1#1).k = true ∧ (subW 0#1 1#1).w = true ∧
    [(1#1, 1#1)].length = 1 := by decide
/-- BaseMultiplierIsExact, the clauses of factors 0 and 1. -/
theorem witness_BaseMultiplierIsExact : (0#64).toNat = 0 ∧ (1#64).toNat = 1 ∧
    mulN ones64 0#64 = (0#128 : BitVec (2 * 64)) ∧ mulN ones64 1#64 = (0xffffffffffffffff#128 : BitVec (2 * 64)) := by decide
/-- WidenedProductIsExact, MiddleTermsAgreeAndAreExact: an exact multiplier at the half width of `MADD64.K`. -/
theorem witness_exact_multiplier : ∀ x y : BitVec 32, (mulN x y).toNat = x.toNat * y.toNat := mulN_toNat
/-- MiddleTermsAgreeAndAreExact, the carry clause on both sides: all ones, and sums of exactly `2^32` (section 2.2). -/
theorem witness_MiddleTermsAgreeAndAreExact :
    (midSum 32 (mulN 0xffffffff#32 0xffffffff#32) (mulN 0xffffffff#32 0xffffffff#32)).k = true ∧
    (midSum 32 (mulN 0x80000000#32 0x80000000#32) (mulN 0x80000000#32 0x80000000#32)).k = false := by decide
/-- RecompositionIsExact: all ones at `W = 64` (section 2.3). -/
theorem witness_RecompositionIsExact :
    (0xfffffffffffffffe0000000000000001#128).toNat = (split 64 ones128).low.toNat * (split 64 ones128).low.toNat ∧
    (0xfffffffffffffffe0000000000000001#128).toNat = (split 64 ones128).high.toNat * (split 64 ones128).high.toNat ∧
    true.toNat * 2 ^ (2 * 64) + (0xfffffffffffffffc0000000000000002#128).toNat
      = (split 64 ones128).low.toNat * (split 64 ones128).high.toNat
        + (split 64 ones128).high.toNat * (split 64 ones128).low.toNat := by decide
/-- AccumulatorAddsWithCarry, the zero clause and the product clause, at all ones. -/
theorem witness_AccumulatorAddsWithCarry : (0#64).toNat = 0 ∧
    (0xfffffffffffffffe#64).toNat * 2 ^ 64 + (1#64).toNat = ones64.toNat * ones64.toNat := by decide
/-- ResultFieldOfEachWidth, both clauses. -/
theorem witness_ResultFieldOfEachWidth : (Instr.madd64K ones64 ones64 ones64).width = .w64 ∧
    (Instr.madd128S ones128 ones128 ones128).width ≠ .w64 := by decide
/-- ExactAt64And128WrapsAt256, its three clauses, each at all ones. -/
theorem witness_ExactAt64And128WrapsAt256 :
    (Instr.madd128K ones128 ones128 ones128).width ≠ .w256 ∧
    ((Instr.madd64S ones64 ones64 ones64).factorA = 2 ^ 64 - 1 ∧ (Instr.madd64S ones64 ones64 ones64).factorB = 2 ^ 64 - 1 ∧
      (Instr.madd64S ones64 ones64 ones64).addend = 2 ^ 64 - 1) ∧
    (Instr.madd256S ones256 ones256 ones256).width = .w256 := by decide
/-- NarrowMiddleTermFailsExactlyOnCarry at `W = 32`: sums of exactly `2^32` fall under the first clause, all ones under the
second. -/
theorem witness_NarrowMiddleTermFailsExactlyOnCarry :
    (split 32 0x8000000080000000#64).low.toNat * (split 32 0x8000000080000000#64).high.toNat
      + (split 32 0x8000000080000000#64).high.toNat * (split 32 0x8000000080000000#64).low.toNat < 2 ^ 64 ∧
    2 ^ 64 ≤ (split 32 ones64).low.toNat * (split 32 ones64).high.toNat
      + (split 32 ones64).high.toNat * (split 32 ones64).low.toNat := by decide
/-- MiddleCarryNeedsBothSumCarries: the smallest halves of the strong probe (section 2.2). -/
theorem witness_MiddleCarryNeedsBothSumCarries :
    (midSum 32 (mulN 0xb504f334#32 0xb504f334#32) (mulN 0xb504f334#32 0xb504f334#32)).k = true := by decide
/-- ArithmeticLawsOfEveryOperation, each clause. -/
theorem witness_ArithmeticLawsOfEveryOperation :
    (Instr.madd64S 0 ones64 ones64).factorA = 0 ∧ (Instr.madd128K ones128 0 ones128).factorB = 0 ∧
    (Instr.madd256S ones256 ones256 0).addend = 0 ∧
    ((Instr.madd256K 0 0 0).factorA = 0 ∧ (Instr.madd256K 0 0 0).factorB = 0 ∧ (Instr.madd256K 0 0 0).addend = 0) := by decide
theorem witness_ArithmeticLawsOfEveryOperation_all_ones :
    ∀ i ∈ [Instr.madd64K ones64 ones64 ones64, .madd128S ones128 ones128 ones128, .madd256K ones256 ones256 ones256],
      i.factorA = 2 ^ i.width.bits - 1 ∧ i.factorB = 2 ^ i.width.bits - 1 ∧ i.addend = 2 ^ i.width.bits - 1 := by decide
/-- EncodeInvertsDecodeOnWellFormed: the largest operands of a 64-bit command. -/
theorem witness_EncodeInvertsDecodeOnWellFormed :
    (Command.mk 0b001#3 0xffffffffffffffff#256 0xffffffffffffffff#256 0xffffffffffffffff#256).wellFormed = true ∧
    decode ⟨0b001#3, 0xffffffffffffffff#256, 0xffffffffffffffff#256, 0xffffffffffffffff#256⟩
      = .ok (.madd64K ones64 ones64 ones64) := ⟨by decide, rfl⟩
/-- UnusedOperandBitsAreIgnored, both clauses: two commands that differ in bit 64 of `a`. -/
theorem witness_UnusedOperandBitsAreIgnored :
    decode ⟨0b000#3, 0x10000000000000005#256, 2, 3⟩ = .ok (.madd64S 5 2 3) ∧ opWidth 0b000#3 = some .w64 ∧
    (0x10000000000000005#256).toNat % 2 ^ 64 = (5#256).toNat % 2 ^ 64 ∧ (0x10000000000000005#256) ≠ 5#256 :=
  ⟨rfl, by decide, by decide, by decide⟩
/-- StepRunsTheDecodedOperation, both clauses. -/
theorem witness_StepRunsTheDecodedOperation :
    ((one 0b011#3 1 2 3).issued = ⟨0b011#3, 1, 2, 3⟩ :: [] ∧ decode ⟨0b011#3, 1, 2, 3⟩ = .ok (.madd128K 1 2 3)) ∧
    State.reset.issued = [] := ⟨⟨rfl, rfl⟩, rfl⟩
/-- PlacedWordRunsNext: the last row of the opcode table. -/
theorem witness_PlacedWordRunsNext : decodeTableWord 3 5 = some (.madd256K 0 0 0) := by decide
/-- ExactlyReservedOpsAreRefused, both directions. -/
theorem witness_ExactlyReservedOpsAreRefused :
    step (one 0b110#3 3 5 7) = .refused (.reservedOp 0b110#3) ∧
    (one 0b111#3 3 5 7).issued = ⟨0b111#3, 3, 5, 7⟩ :: [] := ⟨rfl, rfl⟩
/-- RefusalMarksTheRunForGood: each of the two reserved values in front. -/
theorem witness_RefusalMarksTheRunForGood :
    ((one 0b110#3 3 5 7).issued = ⟨0b110#3, 3, 5, 7⟩ :: [] ∧ (Command.mk 0b110#3 3 5 7).op = 0b110#3) ∧
    ((one 0b111#3 3 5 7).issued = ⟨0b111#3, 3, 5, 7⟩ :: [] ∧ (Command.mk 0b111#3 3 5 7).op = 0b111#3) := by decide
/-- RunOutcomeIsReferenceOfEachCommand, second clause: a reserved command behind an accepted one. -/
theorem witness_RunOutcomeIsReferenceOfEachCommand_reserved :
    ∃ k ∈ [Command.mk 0b101#3 3 5 7, ⟨0b111#3, 3, 5, 7⟩], selectsOperation k = false := by decide
/-- RunOutcomeIsReferenceOfEachCommand, first clause, and CommandsDoNotInteract: a command between two others, and an exchange. -/
theorem witness_RunOutcomeIsReferenceOfEachCommand :
    ∀ k ∈ [Command.mk 0b000#3 3 5 7] ++ ⟨0b101#3, 3, 5, 7⟩ :: [⟨0b011#3, 1, 2, 3⟩], selectsOperation k = true := by decide
theorem witness_CommandsDoNotInteract :
    [Command.mk 0b000#3 3 5 7, ⟨0b101#3, 1, 2, 3⟩].Perm [⟨0b101#3, 1, 2, 3⟩, ⟨0b000#3, 3, 5, 7⟩] := .swap _ _ _
/-- EveryIssuedCommandCompletes: the greatest accepted `op`. -/
theorem witness_EveryIssuedCommandCompletes : (one 0b101#3 3 5 7).allSelect := by
  simp [State.allSelect, one, selectsOperation]
/-- StepKeepsResultsCorrect: a state with a result, 3*5 + 7 = 22 (section 2.5), and a command in progress. -/
theorem witness_StepKeepsResultsCorrect :
    State.resultsCorrect ⟨[⟨0b000#3, 3, 5, 7⟩], [⟨.madd256K 3 5 7, 0x16#256⟩]⟩ ∧
    ∃ t, step ⟨[⟨0b000#3, 3, 5, 7⟩], [⟨.madd256K 3 5 7, 0x16#256⟩]⟩ = .next t :=
  ⟨by simp [State.resultsCorrect, reference, refMadd, Instr.width, Instr.factorA, Instr.factorB, Instr.addend,
    Width.outBits], _, rfl⟩
/-- MulStandsForMaddWithZero: an earlier result's half and the largest literal of width 64. -/
theorem witness_MulStandsForMaddWithZero :
    resolve [⟨0, .w64, 0x86fc60b3f62747555ef9a562300eff00#256⟩] (.lo 0) = some 0x5ef9a562300eff00#256 ∧
    resolve [] (.lit 0xffffffffffffffff) = some 0xffffffffffffffff#256 := by decide
/-- WellFormedListingFinishes: a line whose operand is the half of the result before it. -/
theorem witness_WellFormedListingFinishes :
    Listing.wellFormed [] [.mul .w64 .schoolbook 0 (.lit 0xffffffffffffffff) (.lit 1),
      .madd .w64 .karatsuba 1 (.hi 0) (.lo 0) (.lit 0)] = true := by decide

end Sys2Proof.Tests
end

section
/-! PROOFS. The step, the placed table word and the value an operation returns (10_state.md R27, R30). -/

namespace Sys2Proof.Machine

/-! ### The step, by what the oldest command decodes to -/

/-- With no command in progress a step changes nothing (log 3). -/
theorem step_of_issued_nil {s : State} (hs : s.issued = []) : step s = .next s := by
  rw [step, take_none hs]

/-- A step takes the oldest command and executes the operation it decodes to. -/
theorem step_of_decode_ok {s : State} {k : Command} {rest : List Command} {i : Instr} (hs : s.issued = k :: rest)
    (hk : decode k = .ok i) : step s = exec i { s with issued := rest } := by
  simp only [step, take_cons hs, hk]

/-- Settles O30: the two cases of a step that is not refused. -/
theorem stepRunsTheDecodedOperation : Obligations.StepRunsTheDecodedOperation :=
  ⟨fun _ _ _ _ hs hk => step_of_decode_ok hs hk, fun _ hs => step_of_issued_nil hs⟩

/-! ### The placed table word -/

/-- A table word is read as an operation exactly when its command decodes to that operation. -/
theorem decodeTableWord_eq_some_iff {nbits w : Nat} {i : Instr} :
    decodeTableWord nbits w = some i ↔ decode (commandOfTableWord nbits w) = .ok i := by
  unfold decodeTableWord
  cases decode (commandOfTableWord nbits w) <;> simp

/-- The word placed by `withFetchWord` is the oldest command, in front of all that were in progress. -/
@[simp] theorem withFetchWord_issued (s : State) (nbits w : Nat) :
    (s.withFetchWord nbits w).issued = commandOfTableWord nbits w :: s.issued := rfl

@[simp] theorem withFetchWord_returned (s : State) (nbits w : Nat) :
    (s.withFetchWord nbits w).returned = s.returned := rfl

/-- Settles O31: the placed word is the oldest command, and what is left without it is the state it was placed in. -/
theorem placedWordRunsNext : Obligations.PlacedWordRunsNext := by
  intro s nbits w i hw
  have hk := decodeTableWord_eq_some_iff.mp hw
  rw [step_of_decode_ok (withFetchWord_issued s nbits w) hk, withFetchWord_returned]

/-! ### The value an operation returns -/

/-- The value an operation drives on the port `r`: its datapath's result in the result field (10_state.md R27,
30_encoding.md R65). It takes no state. -/
def resultOf : Instr → Word256
  | .madd64S a b c => resultField (madd64S a b c)
  | .madd64K a b c => resultField (madd64K a b c)
  | .madd128S a b c => resultField (madd128S a b c)
  | .madd128K a b c => resultField (madd128K a b c)
  | .madd256S a b c => resultField (madd256S a b c)
  | .madd256K a b c => resultField (madd256K a b c)

/-- Every operation completes in every state and returns `resultOf` it. -/
theorem exec_eq_returnResult_resultOf (i : Instr) (s : State) : exec i s = .next (s.returnResult i (resultOf i)) := by
  cases i <;> rfl

/-- Settles O34: the function is `resultOf`, which no state enters. -/
theorem resultDependsOnCommandOnly : Obligations.ResultDependsOnCommandOnly :=
  ⟨resultOf, exec_eq_returnResult_resultOf⟩

end Sys2Proof.Machine
end

section
/-! PROOFS. The limb order (20_memory.md R41), and runs of accepted commands, which do not interact (R47). -/

namespace Sys2Proof.Machine

/-! ### The limb order -/

/-- The four 64-bit limbs of a 256-bit value, least significant first, spell it (R41). -/
theorem limbsValue_limbs64 (v : Word256) : limbsValue (limbs64 v) = v.toNat := by
  have hv := v.isLt
  simp only [limbs64, limbsValue, BitVec.extractLsb'_toNat, Nat.shiftRight_eq_div_pow]
  omega

/-- A 64-bit operand and the low Word64 of a 128-bit operand occupy the same port bits (R41). -/
theorem operandField_64_eq_low_split (p : Word256) : operandField 64 p = (split 64 (operandField 128 p)).low := by
  apply BitVec.eq_of_toNat_eq
  simp only [split, operandField, BitVec.extractLsb'_toNat, Nat.shiftRight_zero]
  exact (Nat.mod_mod_of_dvd _ (Nat.pow_dvd_pow 2 (by decide))).symm

/-- Settles O1: the split's exact value at both widths, the four limbs and the shared port bits. -/
theorem limbOrderIsLowFirst : Obligations.LimbOrderIsLowFirst := by
  refine ⟨fun v => ?_, fun v => ?_, fun v => ⟨rfl, limbsValue_limbs64 v⟩, operandField_64_eq_low_split⟩
  · rw [Nat.mul_comm, split_toNat 64 v]
  · rw [Nat.mul_comm, split_toNat 128 v]

/-! ### Runs of accepted commands -/

/-- The commands that select an operation are those that decode to one (30_encoding.md R61, R66). -/
theorem selectsOperation_iff_decode (k : Command) : selectsOperation k = true ↔ ∃ i, decode k = .ok i := by
  obtain ⟨op, a, b, c⟩ := k
  rcases op_cases op with rfl | rfl | rfl | rfl | rfl | rfl | rfl | rfl <;> simp [selectsOperation]

/-- Commands that all select operations decode, in order, to a list of operations. -/
theorem exists_map_decode_eq {ks : List Command} (hks : ∀ k ∈ ks, selectsOperation k = true) :
    ∃ is : List Instr, ks.map decode = is.map .ok := by
  induction ks with
  | nil => exact ⟨[], rfl⟩
  | cons k ks ih =>
    obtain ⟨hk, hks⟩ := List.forall_mem_cons.mp hks
    obtain ⟨i, hi⟩ := (selectsOperation_iff_decode k).mp hk
    obtain ⟨is, his⟩ := ih hks
    exact ⟨i :: is, by simp [hi, his]⟩

/-- Issuing commands one after another puts them behind those in progress, in order (70_reset_and_hazards.md R188). -/
theorem foldl_issue (ks : List Command) (s : State) : ks.foldl State.issue s = ⟨s.issued ++ ks, s.returned⟩ := by
  induction ks generalizing s with
  | nil => simp
  | cons k ks ih => simp [ih]

/-- A run starts with its commands in progress and no result returned. -/
theorem start_eq (ks : List Command) : Run.start ks = ⟨⟨ks, []⟩, none⟩ := by
  simp [Run.start, foldl_issue]

/-- An unmarked run follows the machine's step to its next state. -/
theorem runStep_of_step_next {s t : State} (h : step s = .next t) : Run.step ⟨s, none⟩ = ⟨t, none⟩ := by
  simp [Run.step, h]

/-- What the block returns for an operation: the operation with its value (10_state.md R30). -/
def returnedFor (i : Instr) : Returned := ⟨i, resultOf i⟩

/-- A step of a run serves the oldest command: its operation's result joins the results. -/
theorem runStep_of_decode_ok {k : Command} {i : Instr} (hk : decode k = .ok i) (rest : List Command)
    (done : List Returned) :
    Run.step ⟨⟨k :: rest, done⟩, none⟩ = ⟨⟨rest, done ++ [returnedFor i]⟩, none⟩ := by
  apply runStep_of_step_next
  rw [step_of_decode_ok rfl hk, exec_eq_returnResult_resultOf]
  rfl

/-- As many steps as there are accepted commands serve them all: each adds its own operation's result, in the order of
issue, and the earlier results stay (70_reset_and_hazards.md R187, R188). -/
theorem steps_of_map_decode_eq {ks : List Command} {is : List Instr} (h : ks.map decode = is.map .ok)
    (done : List Returned) :
    Run.steps ks.length ⟨⟨ks, done⟩, none⟩ = ⟨⟨[], done ++ is.map returnedFor⟩, none⟩ := by
  induction ks generalizing is done with
  | nil => simp [List.map_eq_nil_iff.mp h.symm]
  | cons k ks ih =>
    obtain ⟨i, is, rfl, hk, his⟩ := List.map_eq_cons_iff.mp h.symm
    rw [List.length_cons, steps_succ, runStep_of_decode_ok hk.symm, ih his.symm]
    simp

/-- The outcome of a run of accepted commands is the list of their operations' results, in the order of issue
(70_reset_and_hazards.md R188). -/
theorem runOutcome_of_map_decode_eq {ks : List Command} {is : List Instr} (h : ks.map decode = is.map .ok) :
    runOutcome ks = some (is.map resultOf) := by
  rw [runOutcome, start_eq, steps_of_map_decode_eq h]
  simp [Run.outcome, returnedFor]

/-- The result in a command's place is the result the command returns when run alone (20_memory.md R47). -/
theorem runOutcome_in_place {before after : List Command} {k : Command}
    (h : ∀ x ∈ before ++ k :: after, selectsOperation x = true) :
    ∃ (r : Word256) (rs : List Word256), runOutcome [k] = some [r] ∧ runOutcome (before ++ k :: after) = some rs ∧
      rs[before.length]? = some r := by
  obtain ⟨is, his⟩ := exists_map_decode_eq h
  have hplace : (is.map Except.ok)[before.length]? = some (decode k) := by simp [← his]
  obtain ⟨i, hi, hk⟩ : ∃ i, is[before.length]? = some i ∧ Except.ok i = decode k := by simpa using hplace
  refine ⟨resultOf i, is.map resultOf, ?_, runOutcome_of_map_decode_eq his, by simp [hi]⟩
  exact runOutcome_of_map_decode_eq (is := [i]) (by simp [hk])

/-- Issuing accepted commands in another order only reorders the results (20_memory.md R47). -/
theorem runOutcome_perm {ks ks' : List Command} (h : ∀ x ∈ ks, selectsOperation x = true) (hp : ks.Perm ks') :
    ∃ rs rs' : List Word256, runOutcome ks = some rs ∧ runOutcome ks' = some rs' ∧ rs.Perm rs' := by
  obtain ⟨is, his⟩ := exists_map_decode_eq h
  obtain ⟨is', his'⟩ := exists_map_decode_eq fun x hx => h x (hp.mem_iff.mpr hx)
  have hok : (is.map (Except.ok (ε := DecodeReject))).Perm (is'.map .ok) := his ▸ his' ▸ hp.map decode
  have hops : is.Perm is' := (List.map_perm_map_iff fun _ _ => Except.ok.inj).mp hok
  exact ⟨_, _, runOutcome_of_map_decode_eq his, runOutcome_of_map_decode_eq his', hops.map resultOf⟩

/-- Settles O37: each result is that of its command's operation, which no other command and no order enters. -/
theorem commandsDoNotInteract : Obligations.CommandsDoNotInteract :=
  ⟨fun _ _ _ => runOutcome_in_place, fun _ _ => runOutcome_perm⟩

end Sys2Proof.Machine
end

section
/-! PROOFS. The decoder and the encoder over width and variant (30_encoding.md R60 to R66), and the steps they decide. -/

namespace Sys2Proof.Machine

/-! ### The operation of a width and a variant -/

/-- The operation of a width and a variant on operands of that width (R61, R64). -/
def maddOf : (w : Width) → Variant → (a b c : BitVec w.bits) → Instr
  | .w64, .schoolbook, a, b, c => .madd64S a b c
  | .w64, .karatsuba, a, b, c => .madd64K a b c
  | .w128, .schoolbook, a, b, c => .madd128S a b c
  | .w128, .karatsuba, a, b, c => .madd128K a b c
  | .w256, .schoolbook, a, b, c => .madd256S a b c
  | .w256, .karatsuba, a, b, c => .madd256K a b c

/-- Every operation is that of its width and its variant, on some operands. -/
theorem exists_eq_maddOf (i : Instr) : ∃ a b c : BitVec i.width.bits, i = maddOf i.width i.variant a b c := by
  cases i <;> exact ⟨_, _, _, rfl⟩

section
variable (w : Width) (v : Variant) (a b c : BitVec w.bits)

@[simp] theorem maddOf_width : (maddOf w v a b c).width = w := by cases w <;> cases v <;> rfl
@[simp] theorem maddOf_factorA : (maddOf w v a b c).factorA = a.toNat := by cases w <;> cases v <;> rfl
@[simp] theorem maddOf_factorB : (maddOf w v a b c).factorB = b.toNat := by cases w <;> cases v <;> rfl
@[simp] theorem maddOf_addend : (maddOf w v a b c).addend = c.toNat := by cases w <;> cases v <;> rfl

/-- The encoder writes the select of the width and the variant, and the operands on the low bits of the ports. -/
theorem encode_maddOf : encode (maddOf w v a b c) =
    ⟨opSelect w v, operandOnPort a, operandOnPort b, operandOnPort c⟩ := by
  cases w <;> cases v <;> rfl

end

theorem width_bits_le (w : Width) : w.bits ≤ 256 := by cases w <;> decide

/-! ### What the decoder accepts -/

/-- The operation the select of a width and a variant asks for: the operands are the low bits of the ports (R64). -/
def maddOfPorts (w : Width) (v : Variant) (a b c : Word256) : Instr :=
  maddOf w v (operandField w.bits a) (operandField w.bits b) (operandField w.bits c)

/-- The decoder at the select of a width and a variant. -/
theorem decode_opSelect (w : Width) (v : Variant) (a b c : Word256) :
    decode ⟨opSelect w v, a, b, c⟩ = .ok (maddOfPorts w v a b c) := by
  cases w <;> cases v <;> rfl

/-- An operation select either is reserved or is that of a width and a variant (R61, R66). -/
theorem reserved_or_eq_opSelect (op : BitVec 3) : (op = 0b110#3 ∨ op = 0b111#3) ∨ ∃ w v, op = opSelect w v := by
  rcases op_cases op with rfl | rfl | rfl | rfl | rfl | rfl | rfl | rfl
  · exact .inr ⟨.w64, .schoolbook, rfl⟩
  · exact .inr ⟨.w64, .karatsuba, rfl⟩
  · exact .inr ⟨.w128, .schoolbook, rfl⟩
  · exact .inr ⟨.w128, .karatsuba, rfl⟩
  · exact .inr ⟨.w256, .schoolbook, rfl⟩
  · exact .inr ⟨.w256, .karatsuba, rfl⟩
  · exact .inl (.inl rfl)
  · exact .inl (.inr rfl)

/-- A reserved select is rejected by name, whatever the operands are (R66). -/
theorem decode_of_reserved {k : Command} (hk : k.op = 0b110#3 ∨ k.op = 0b111#3) :
    decode k = .error (.reservedOp k.op) := by
  obtain ⟨op, a, b, c⟩ := k
  rcases hk with rfl | rfl
  · exact decode_110 a b c
  · exact decode_111 a b c

/-- A command that decodes asks, by its select, for the operation of a width and a variant on its ports. -/
theorem eq_maddOfPorts_of_decode_ok {k : Command} {i : Instr} (h : decode k = .ok i) :
    ∃ w v, k.op = opSelect w v ∧ i = maddOfPorts w v k.a k.b k.c := by
  obtain ⟨op, a, b, c⟩ := k
  rcases reserved_or_eq_opSelect op with hr | ⟨w, v, rfl⟩
  · rw [decode_of_reserved hr] at h
    nomatch h
  · rw [decode_opSelect] at h
    exact ⟨w, v, rfl, (Except.ok.inj h).symm⟩

/-- The decoder rejects a command exactly for a reserved select, and the rejection names it (R66). -/
theorem decode_eq_error_iff {k : Command} {e : DecodeReject} :
    decode k = .error e ↔ (k.op = 0b110#3 ∨ k.op = 0b111#3) ∧ e = .reservedOp k.op := by
  constructor
  · intro h
    obtain ⟨op, a, b, c⟩ := k
    rcases reserved_or_eq_opSelect op with hr | ⟨w, v, rfl⟩
    · rw [decode_of_reserved hr] at h
      exact ⟨hr, (Except.error.inj h).symm⟩
    · rw [decode_opSelect] at h
      nomatch h
  · rintro ⟨hr, rfl⟩
    exact decode_of_reserved hr

/-- A select that gives a width is that of this width and a variant. -/
theorem eq_opSelect_of_opWidth {op : BitVec 3} {w : Width} (h : opWidth op = some w) : ∃ v, op = opSelect w v := by
  rcases reserved_or_eq_opSelect op with (rfl | rfl) | ⟨w', v, rfl⟩
  · nomatch h
  · nomatch h
  · rw [opWidth_opSelect] at h
    exact ⟨v, by rw [Option.some.inj h]⟩

/-! ### The two round trips -/

/-- Settles O26: the select reads back as the width and the variant, and each operand, which its port holds whole, as
itself. -/
theorem decodeInvertsEncode : Obligations.DecodeInvertsEncode := by
  intro i
  obtain ⟨a, b, c, hi⟩ := exists_eq_maddOf i
  have hfield := operandField_operandOnPort (width_bits_le i.width)
  rw [hi, encode_maddOf, decode_opSelect, maddOfPorts, hfield, hfield, hfield]

/-- A command that decodes has the `op` of its operation's encoding (R61). -/
theorem encode_op_of_decode_ok {k : Command} {i : Instr} (h : decode k = .ok i) : (encode i).op = k.op := by
  obtain ⟨w, v, hop, rfl⟩ := eq_maddOfPorts_of_decode_ok h
  rw [maddOfPorts, encode_maddOf, hop]

/-- A well-formed command has the select of a width and a variant, and no operand bit above that width. -/
theorem wellFormed_cases {k : Command} (h : k.wellFormed = true) : ∃ w v, k.op = opSelect w v ∧
    k.a.toNat < 2 ^ w.bits ∧ k.b.toNat < 2 ^ w.bits ∧ k.c.toNat < 2 ^ w.bits := by
  unfold Command.wellFormed at h
  split at h
  next => nomatch h
  next w hw =>
    obtain ⟨v, hop⟩ := eq_opSelect_of_opWidth hw
    simp only [Bool.and_eq_true, decide_eq_true_eq, and_assoc] at h
    exact ⟨w, v, hop, h⟩

/-- Settles O27: in a well-formed command each port holds its operand field and nothing above it. -/
theorem encodeInvertsDecodeOnWellFormed : Obligations.EncodeInvertsDecodeOnWellFormed := by
  refine ⟨fun k hk => ?_, fun _ _ => encode_op_of_decode_ok⟩
  obtain ⟨w, v, hop, ha, hb, hc⟩ := wellFormed_cases hk
  obtain ⟨op, a, b, c⟩ := k
  obtain rfl : op = opSelect w v := hop
  refine ⟨maddOfPorts w v a b c, decode_opSelect w v a b c, ?_⟩
  rw [maddOfPorts, encode_maddOf, operandOnPort_operandField ha, operandOnPort_operandField hb,
    operandOnPort_operandField hc]

/-! ### Ignored operand bits -/

/-- Two ports with the same low `W` bits carry the same operand of width `W` (R64). -/
theorem operandField_congr {W : Nat} {p q : Word256} (h : p.toNat % 2 ^ W = q.toNat % 2 ^ W) :
    operandField W p = operandField W q :=
  BitVec.eq_of_toNat_eq (by rw [operandField_toNat, operandField_toNat, h])

/-- Settles O28: the operand fields are the port values mod `2^W`, and commands that agree on them decode alike. -/
theorem unusedOperandBitsAreIgnored : Obligations.UnusedOperandBitsAreIgnored := by
  constructor
  · intro k i h
    obtain ⟨w, v, -, rfl⟩ := eq_maddOfPorts_of_decode_ok h
    simp only [maddOfPorts, maddOf_width, maddOf_factorA, maddOf_factorB, maddOf_addend, operandField_toNat, and_self]
  · rintro ⟨op, a, b, c⟩ ⟨op', a', b', c'⟩ w rest done hw hop ha hb hc
    obtain rfl : op = op' := hop
    obtain ⟨v, rfl⟩ := eq_opSelect_of_opWidth hw
    have hdecode : maddOfPorts w v a b c = maddOfPorts w v a' b' c' := by
      rw [maddOfPorts, operandField_congr ha, operandField_congr hb, operandField_congr hc, maddOfPorts]
    rw [step_of_decode_ok rfl (decode_opSelect w v a b c), step_of_decode_ok rfl (decode_opSelect w v a' b' c'),
      hdecode]

/-! ### Refusals -/

/-- A step on a command that the decoder rejects is refused, with the rejection's `op` (R66). -/
theorem step_of_decode_error {s : State} {k : Command} {rest : List Command} {op : BitVec 3}
    (hs : s.issued = k :: rest) (hk : decode k = .error (.reservedOp op)) : step s = .refused (.reservedOp op) := by
  simp only [step, take_cons hs, hk]

/-- Settles O32: a step on nothing or on an accepted command answers a next state, and the rejected commands are those
with a reserved `op`. -/
theorem exactlyReservedOpsAreRefused : Obligations.ExactlyReservedOpsAreRefused := by
  intro s why
  constructor
  · intro h
    cases hs : s.issued with
    | nil =>
      rw [step_of_issued_nil hs] at h
      nomatch h
    | cons k rest =>
      cases hk : decode k with
      | ok i =>
        rw [step_of_decode_ok hs hk, exec_eq_returnResult_resultOf] at h
        nomatch h
      | error e =>
        obtain ⟨hop, rfl⟩ := decode_eq_error_iff.mp hk
        rw [step_of_decode_error hs hk] at h
        exact ⟨k, rest, rfl, hop, (Host.Outcome.refused.inj h).symm⟩
  · rintro ⟨k, rest, hs, hop, rfl⟩
    exact step_of_decode_error hs (decode_of_reserved hop)

/-! ### The opcode table -/

/-- Exactly one row of the table selects the `op` of an operation's encoding: the operation's own (R61, R62). -/
theorem opcodeTable_filter_encode (i : Instr) :
    opcodeTable.filter (fun row => row.selects (encode i).op) = [⟨i.mnemonic, (encode i).op, 0b111#3⟩] := by
  cases i <;> simp only [encode, Instr.mnemonic] <;> decide

/-- Settles O25: an accepted `op` is that of the decoded operation's encoding, and the other two select no row. -/
theorem opcodeTableAndDecoderAgree : Obligations.OpcodeTableAndDecoderAgree := by
  intro k
  cases hk : decode k with
  | ok i =>
    have hop := encode_op_of_decode_ok hk
    have hlt : k.op.toNat < 6 := of_decide_eq_true ((selectsOperation_iff_decode k).mpr ⟨i, hk⟩)
    exact ⟨hop ▸ opcodeTable_filter_encode i, hlt⟩
  | error e =>
    obtain ⟨hop, rfl⟩ := decode_eq_error_iff.mp hk
    rcases hop with hop | hop <;> rw [hop] <;> exact ⟨rfl, rfl, by decide⟩

/-- Settles O29: the eight words, each evaluated. -/
theorem tableWordsDecodeAsWritten : Obligations.TableWordsDecodeAsWritten := by
  unfold Obligations.TableWordsDecodeAsWritten
  decide

end Sys2Proof.Machine
end

section
/-! PROOFS. The value every operation returns (40_limb_primitives.md R89 to R94): the widened product, the middle term, the
recomposition and the accumulation over any exact multiplier, and the six datapaths built from them. -/

namespace Sys2Proof.Machine

/-! ### Values by their limbs -/

/-- A value of `W+1` bits is its low `W` bits and its top bit at weight `2^W` (R89). -/
theorem toNat_eq_low_add_top {W : Nat} (s : BitVec (W + 1)) :
    s.toNat = (s.extractLsb' 0 W).toNat + 2 ^ W * (s.getLsbD W).toNat := by
  have htop : s.toNat / 2 ^ W < 2 := Nat.div_lt_of_lt_mul (by simpa only [Nat.pow_succ] using s.isLt)
  rw [BitVec.extractLsb'_toNat, Nat.shiftRight_zero, BitVec.getLsbD, Nat.toNat_testBit, Nat.mod_eq_of_lt htop,
    Nat.mod_add_div]

/-- A sum and its carry are determined by the exact value they spell (R82). -/
theorem carrySum_eq_of_toNat_eq {N : Nat} {p q : CarrySum N}
    (h : p.s.toNat + 2 ^ N * p.k.toNat = q.s.toNat + 2 ^ N * q.k.toNat) : p = q := by
  have hbit : ∀ k k' : Bool, k.toNat = k'.toNat → k = k' := by decide
  have hs : p.s.toNat = q.s.toNat := by
    have := congrArg (· % 2 ^ N) h
    simpa only [Nat.add_mul_mod_self_left, BitVec.toNat_mod_cancel] using this
  have hk : p.k.toNat = q.k.toNat := Nat.eq_of_mul_eq_mul_left (Nat.two_pow_pos N) (Nat.add_left_cancel (hs ▸ h))
  obtain ⟨s, k⟩ := p
  obtain ⟨s', k'⟩ := q
  obtain rfl : s = s' := BitVec.eq_of_toNat_eq hs
  obtain rfl : k = k' := hbit k k' hk
  rfl

/-- The join of the two limbs of a value is the value (R80, R81). -/
theorem join_split (W : Nat) (v : BitVec (2 * W)) : join W (split W v) = v :=
  BitVec.eq_of_toNat_eq (by rw [join_toNat, split_toNat])

/-- A wrapped low part, with its carry added into a wrapped high part, is the wrapped whole. -/
theorem low_mod_add_mul_high_mod {P : Nat} (hP : 0 < P) (l h : Nat) :
    l % P + P * ((h + l / P) % P) = (l + P * h) % (P * P) := by
  rw [Nat.mod_mul, Nat.add_mul_mod_self_left, Nat.add_mul_div_left _ _ hP, Nat.add_comm (l / P)]

/-- The exact value of an operation needs at most `2N` bits (R95). -/
theorem mul_add_lt_two_pow {N : Nat} (x y c : BitVec N) : x.toNat * y.toNat + c.toNat < 2 ^ (2 * N) := by
  calc x.toNat * y.toNat + c.toNat
      < x.toNat * 2 ^ N + 2 ^ N := Nat.add_lt_add_of_le_of_lt (Nat.mul_le_mul_left _ y.isLt.le) c.isLt
    _ = (x.toNat + 1) * 2 ^ N := (Nat.succ_mul _ _).symm
    _ ≤ 2 ^ N * 2 ^ N := Nat.mul_le_mul_right _ x.isLt
    _ = 2 ^ (2 * N) := by rw [Nat.two_mul, Nat.pow_add]

/-! ### Recomposition and accumulation -/

/-- The pair of `RECOMB_W` is its three parts in their places, wrapped to `4W` bits (R92). -/
theorem join_recomb_toNat (W : Nat) (z0 : BitVec (2 * W)) (mid : CarrySum (2 * W)) (z2 : BitVec (2 * W)) :
    (join (2 * W) (recomb W z0 mid z2)).toNat =
      (z0.toNat + 2 ^ W * (mid.s.toNat + 2 ^ (2 * W) * mid.k.toNat) + 2 ^ (2 * W) * z2.toNat) % 2 ^ (2 * (2 * W)) := by
  rw [join_toNat, recomb_low_toNat, recomb_high_toNat, low_mod_add_mul_high_mod (Nat.two_pow_pos _),
    ← Nat.pow_add, ← Nat.two_mul]
  congr 1
  have hs := Nat.mod_add_div mid.s.toNat (2 ^ W)
  have hsq : 2 ^ (2 * W) = 2 ^ W * 2 ^ W := by rw [Nat.two_mul, Nat.pow_add]
  linear_combination 2 ^ W * hs + (mid.s.toNat / 2 ^ W) * hsq

/-- `ACC_N` adds `c` to the value of the pair, wrapped to `2N` bits (R93). -/
theorem join_acc_toNat {N : Nat} (p : Limbs N) (c : BitVec N) :
    (join N (acc p c)).toNat = ((join N p).toNat + c.toNat) % 2 ^ (2 * N) := by
  rw [join_toNat, acc_low_toNat, acc_high_toNat, low_mod_add_mul_high_mod (Nat.two_pow_pos _), ← Nat.pow_add,
    ← Nat.two_mul, join_toNat, Nat.add_right_comm]

/-- On the product of two `N`-bit values `ACC_N` is exact (R93). -/
theorem join_acc_toNat_of_product {N : Nat} {p : Limbs N} {x y : BitVec N}
    (hp : (join N p).toNat = x.toNat * y.toNat) (c : BitVec N) :
    (join N (acc p c)).toNat = x.toNat * y.toNat + c.toNat := by
  rw [join_acc_toNat, hp, Nat.mod_eq_of_lt (mul_add_lt_two_pow x y c)]

/-- The low half of `ACC_N` is the value of the pair plus `c`, wrapped to `N` bits (R93). -/
theorem acc_low_toNat_of_join {N : Nat} (p : Limbs N) (c : BitVec N) :
    (acc p c).low.toNat = ((join N p).toNat + c.toNat) % 2 ^ N := by
  rw [acc_low_toNat, join_toNat, Nat.add_right_comm, Nat.add_mul_mod_self_left]

/-! ### The two products, over an exact multiplier -/

section
variable {W : Nat} {M : BitVec W → BitVec W → BitVec (2 * W)} (hM : ∀ x y, (M x y).toNat = x.toNat * y.toNat)
include hM

/-- `WMUL_W` is the exact product of two values of `W+1` bits (R89). -/
theorem wmul_toNat_of_exact (sa sb : BitVec (W + 1)) : (wmul W M sa sb).toNat = sa.toNat * sb.toNat := by
  have hlt : sa.toNat * sb.toNat < 2 ^ (2 * W + 2) := by
    have := Nat.mul_lt_mul'' sa.isLt sb.isLt
    rwa [← Nat.pow_add, show W + 1 + (W + 1) = 2 * W + 2 by omega] at this
  have hsq : 2 ^ (2 * W) = 2 ^ W * 2 ^ W := by rw [Nat.two_mul, Nat.pow_add]
  rw [wmul_toNat, hM, ← Nat.mod_eq_of_lt hlt]
  congr 1
  rw [toNat_eq_low_add_top sa, toNat_eq_low_add_top sb, hsq]
  cases sa.getLsbD W <;> cases sb.getLsbD W <;> simp <;> ring

/-- The schoolbook middle term is exact (R90). -/
theorem midSum_toNat_of_exact (a0 a1 b0 b1 : BitVec W) :
    (midSum W (M a0 b1) (M a1 b0)).s.toNat + 2 ^ (2 * W) * (midSum W (M a0 b1) (M a1 b0)).k.toNat =
      a0.toNat * b1.toNat + a1.toNat * b0.toNat := by
  rw [midSum, addW_toNat, hM, hM]

/-- The Karatsuba middle term is the schoolbook one: the product of the sums less the two outer products leaves the two
cross products (R91). -/
theorem midSub_eq_midSum_of_exact (a0 a1 b0 b1 : BitVec W) :
    midSub W (wmul W M (wideSum a0 a1) (wideSum b0 b1)) (M a0 b0) (M a1 b1) = midSum W (M a0 b1) (M a1 b0) := by
  have hm : (wmul W M (wideSum a0 a1) (wideSum b0 b1)).toNat =
      (M a0 b0).toNat + (M a1 b1).toNat + ((M a0 b1).toNat + (M a1 b0).toNat) := by
    simp only [wmul_toNat_of_exact hM, wideSum_toNat, hM]
    ring
  have hcross : (M a0 b1).toNat + (M a1 b0).toNat < 2 ^ (2 * W + 1) := by
    rw [Nat.pow_succ]
    omega
  apply carrySum_eq_of_toNat_eq
  rw [midSub_toNat W _ _ _ (by omega) (by omega), midSum, addW_toNat]
  omega

/-- The schoolbook product of two `2W`-bit values is exact (R92). -/
theorem join_schoolbookProduct_toNat (a b : BitVec (2 * W)) :
    (join (2 * W) (schoolbookProduct W M a b)).toNat = a.toNat * b.toNat := by
  have hlt : a.toNat * b.toNat < 2 ^ (2 * (2 * W)) := by
    simpa using mul_add_lt_two_pow a b 0#(2 * W)
  have hsq : 2 ^ (2 * W) = 2 ^ W * 2 ^ W := by rw [Nat.two_mul, Nat.pow_add]
  rw [schoolbookProduct, join_recomb_toNat, midSum_toNat_of_exact hM, hM, hM, ← Nat.mod_eq_of_lt hlt,
    ← split_toNat W a, ← split_toNat W b, hsq]
  congr 1
  ring

/-- The Karatsuba product is the schoolbook one, limb for limb. -/
theorem karatsubaProduct_eq_schoolbookProduct (a b : BitVec (2 * W)) :
    karatsubaProduct W M a b = schoolbookProduct W M a b := by
  simp only [karatsubaProduct, schoolbookProduct, midSub_eq_midSum_of_exact hM]

/-- The Karatsuba product of two `2W`-bit values is exact (R92). -/
theorem join_karatsubaProduct_toNat (a b : BitVec (2 * W)) :
    (join (2 * W) (karatsubaProduct W M a b)).toNat = a.toNat * b.toNat := by
  rw [karatsubaProduct_eq_schoolbookProduct hM, join_schoolbookProduct_toNat hM]

end

/-! ### The six datapaths -/

theorem madd64S_toNat (a b c : Word64) : (madd64S a b c).toNat = a.toNat * b.toNat + c.toNat :=
  join_acc_toNat_of_product (by rw [join_split, mulN_toNat]) c

theorem madd64K_toNat (a b c : Word64) : (madd64K a b c).toNat = a.toNat * b.toNat + c.toNat :=
  join_acc_toNat_of_product (join_karatsubaProduct_toNat (W := 32) (fun x y => mulN_toNat x y) a b) c

/-- The delegated 64-bit multiplication is exact in either variant (R98). -/
theorem delegate64_toNat (v : Variant) (x y : Word64) : (delegate64 v x y).toNat = x.toNat * y.toNat := by
  cases v with
  | schoolbook => exact madd64S_toNat x y 0#64
  | karatsuba => exact madd64K_toNat x y 0#64

theorem madd128SWith_toNat (sub : Variant) (a b c : Word128) :
    (madd128SWith sub a b c).toNat = a.toNat * b.toNat + c.toNat :=
  join_acc_toNat_of_product (join_schoolbookProduct_toNat (delegate64_toNat sub) a b) c

theorem madd128KWith_toNat (sub : Variant) (a b c : Word128) :
    (madd128KWith sub a b c).toNat = a.toNat * b.toNat + c.toNat :=
  join_acc_toNat_of_product (join_karatsubaProduct_toNat (delegate64_toNat sub) a b) c

/-- The delegated 128-bit multiplication is exact in either variant (R98). -/
theorem delegate128_toNat (v : Variant) (x y : Word128) : (delegate128 v x y).toNat = x.toNat * y.toNat := by
  cases v with
  | schoolbook => exact madd128SWith_toNat .schoolbook x y 0#128
  | karatsuba => exact madd128KWith_toNat .karatsuba x y 0#128

theorem madd256SWith_toNat (sub : Variant) (a b c : Word256) :
    (madd256SWith sub a b c).toNat = (a.toNat * b.toNat + c.toNat) % 2 ^ 256 := by
  rw [madd256SWith, acc_low_toNat_of_join, join_schoolbookProduct_toNat (delegate128_toNat sub)]

theorem madd256KWith_toNat (sub : Variant) (a b c : Word256) :
    (madd256KWith sub a b c).toNat = (a.toNat * b.toNat + c.toNat) % 2 ^ 256 := by
  rw [madd256KWith, acc_low_toNat_of_join, join_karatsubaProduct_toNat (delegate128_toNat sub)]

/-! ### The value on the result port -/

/-- At widths 64 and 128 the reference value is the exact one (R95). -/
theorem reference_eq_exact {i : Instr} (hi : i.width ≠ .w256) : reference i = i.factorA * i.factorB + i.addend := by
  cases i with
  | madd64S a b c => exact Nat.mod_eq_of_lt (mul_add_lt_two_pow a b c)
  | madd64K a b c => exact Nat.mod_eq_of_lt (mul_add_lt_two_pow a b c)
  | madd128S a b c => exact Nat.mod_eq_of_lt (mul_add_lt_two_pow a b c)
  | madd128K a b c => exact Nat.mod_eq_of_lt (mul_add_lt_two_pow a b c)
  | madd256S a b c => exact absurd rfl hi
  | madd256K a b c => exact absurd rfl hi

/-- Every operation returns its reference value (R94). -/
theorem resultOf_toNat (i : Instr) : (resultOf i).toNat = reference i := by
  have hfits {N : Nat} (x y c : BitVec N) := (Nat.mod_eq_of_lt (mul_add_lt_two_pow x y c)).symm
  cases i with
  | madd64S a b c => exact (resultField_toNat (by decide) _).trans ((madd64S_toNat a b c).trans (hfits a b c))
  | madd64K a b c => exact (resultField_toNat (by decide) _).trans ((madd64K_toNat a b c).trans (hfits a b c))
  | madd128S a b c => exact (resultField_toNat (by decide) _).trans ((madd128SWith_toNat _ a b c).trans (hfits a b c))
  | madd128K a b c => exact (resultField_toNat (by decide) _).trans ((madd128KWith_toNat _ a b c).trans (hfits a b c))
  | madd256S a b c => exact (resultField_toNat (by decide) _).trans (madd256SWith_toNat _ a b c)
  | madd256K a b c => exact (resultField_toNat (by decide) _).trans (madd256KWith_toNat _ a b c)

/-- The exact value of an operation of width 64 fits the 128 low bits of `r` (R65). -/
theorem exact_lt_of_width_w64 {i : Instr} (hi : i.width = .w64) : i.factorA * i.factorB + i.addend < 2 ^ 128 := by
  rw [← reference_eq_exact (by simp [hi]), reference, refMadd, hi]
  exact Nat.mod_lt _ (Nat.two_pow_pos _)

/-- Settles O18: the returned value is the reference value, which at width 64 leaves the high half of `r` zero. -/
theorem resultFieldOfEachWidth : Obligations.ResultFieldOfEachWidth := by
  intro i s
  have hr := resultOf_toNat i
  refine ⟨resultOf i, exec_eq_returnResult_resultOf i s, fun hi => ?_, fun hi => ?_⟩
  · have hlt := exact_lt_of_width_w64 hi
    rw [reference_eq_exact (by simp [hi])] at hr
    constructor
    · rw [BitVec.extractLsb_toNat, Nat.shiftRight_zero, hr, Nat.mod_eq_of_lt hlt]
    · apply BitVec.eq_of_toNat_eq
      rw [BitVec.extractLsb_toNat, hr, Nat.shiftRight_eq_div_pow, Nat.div_eq_of_lt hlt, Nat.zero_mod]
      rfl
  · have hout : i.width.outBits = 256 := by
      cases hw : i.width with
      | w64 => exact absurd hw hi
      | w128 => rfl
      | w256 => rfl
    rw [hr, reference, refMadd, hout]

end Sys2Proof.Machine
end

section
/-! PROOFS. The driver's listings (30_encoding.md R70, R71): the command a line stands for, and the run of a well-formed
listing. -/

namespace Sys2Proof.Machine

/-! ### The command of a line -/

/-- The command of three operands that resolve. -/
theorem commandOf_eq_some {env : List Binding} {a b c : Source} {va vb vc : Word256} (op : BitVec 3)
    (ha : resolve env a = some va) (hb : resolve env b = some vb) (hc : resolve env c = some vc) :
    commandOf env op a b c = some ⟨op, va, vb, vc⟩ := by
  simp only [commandOf, ha, hb, hc]

/-- The literal 0 is the zero value on its port (R71). -/
theorem resolve_lit_zero (env : List Binding) : resolve env (.lit 0) = some 0#256 := rfl

/-- Settles O43: the two lines stand for one command by definition, and its third operand is the literal 0. -/
theorem mulStandsForMaddWithZero : Obligations.MulStandsForMaddWithZero :=
  fun env _ _ _ _ _ => ⟨rfl, fun _ _ ha hb => commandOf_eq_some _ ha hb (resolve_lit_zero env)⟩

/-! ### Names that are bound -/

/-- The names of a driver's bindings with their widths, as `Listing.wellFormed` counts them. -/
def boundNames (env : List Binding) : Bound := env.map fun b => (b.name, b.width)

/-- A name is looked up alike among the bindings and among the bound names: the newest of that name (log 11). -/
theorem lookup_boundNames (env : List Binding) (n : Nat) :
    (boundNames env).lookup n = (lookupName env n).map Binding.width := by
  induction env with
  | nil => rfl
  | cons b env ih =>
    by_cases hn : b.name = n
    · simp [boundNames, lookupName, hn]
    · have hne : (n == b.name) = false := beq_eq_false_iff_ne.mpr (Ne.symm hn)
      simpa [boundNames, lookupName, List.lookup_cons, hn, hne] using ih

/-- A bound name stands for a result. -/
theorem exists_lookupName_of_bound (env : List Binding) (n : Nat) (h : (boundNames env).lookup n ≠ none) :
    ∃ b, lookupName env n = some b := by
  rw [lookup_boundNames, ne_eq, Option.map_eq_none_iff] at h
  exact Option.ne_none_iff_exists'.mp h

/-- A well-formed operand resolves: it is a literal, or the name it uses is bound (R70). -/
theorem exists_resolve_of_wellFormed {env : List Binding} {W : Nat} {src : Source}
    (h : src.wellFormed (boundNames env) W = true) : ∃ v, resolve env src = some v := by
  cases src with
  | lit v => exact ⟨_, rfl⟩
  | res n =>
    obtain ⟨b, hb⟩ := exists_lookupName_of_bound env n fun hn => by simp [Source.wellFormed, hn] at h
    exact ⟨b.r, by simp [resolve, hb]⟩
  | lo n =>
    obtain ⟨b, hb⟩ := exists_lookupName_of_bound env n fun hn => by simp [Source.wellFormed, hn] at h
    exact ⟨b.lo, by simp [resolve, hb]⟩
  | hi n =>
    obtain ⟨b, hb⟩ := exists_lookupName_of_bound env n fun hn => by simp [Source.wellFormed, hn] at h
    exact ⟨b.hi, by simp [resolve, hb]⟩

/-- A well-formed line stands for a command that decodes to an operation (R70). -/
theorem exists_lineCommand_of_wellFormed {env : List Binding} {l : Line}
    (h : l.wellFormed (boundNames env) = true) : ∃ k i, lineCommand env l = some k ∧ decode k = .ok i := by
  cases l with
  | madd w v r a b c =>
    simp only [Line.wellFormed, Bool.and_eq_true] at h
    obtain ⟨⟨ha, hb⟩, hc⟩ := h
    obtain ⟨va, hva⟩ := exists_resolve_of_wellFormed ha
    obtain ⟨vb, hvb⟩ := exists_resolve_of_wellFormed hb
    obtain ⟨vc, hvc⟩ := exists_resolve_of_wellFormed hc
    exact ⟨_, _, commandOf_eq_some _ hva hvb hvc, decode_opSelect w v va vb vc⟩
  | mul w v r a b =>
    simp only [Line.wellFormed, Bool.and_eq_true] at h
    obtain ⟨ha, hb⟩ := h
    obtain ⟨va, hva⟩ := exists_resolve_of_wellFormed ha
    obtain ⟨vb, hvb⟩ := exists_resolve_of_wellFormed hb
    exact ⟨_, _, commandOf_eq_some _ hva hvb (resolve_lit_zero env), decode_opSelect w v va vb 0#256⟩
  | raw op r a b c => nomatch h

/-- The names bound after a well-formed line are those that `Line.bind` counts. -/
theorem boundNames_bindResult {env : List Binding} {l : Line} (h : l.wellFormed (boundNames env) = true) (r : Word256) :
    boundNames (bindResult env r l) = l.bind (boundNames env) := by
  cases l with
  | madd w v n a b c => rfl
  | mul w v n a b => rfl
  | raw op n a b c => nomatch h

/-! ### The run of a listing -/

/-- A line whose command decodes, issued with nothing in progress, returns its operation's value, and the listing goes on
with the line's name bound to it. -/
theorem runListing_cons {env : List Binding} {l : Line} {k : Command} {i : Instr} {s : State} (ls : Listing)
    (hl : lineCommand env l = some k) (hk : decode k = .ok i) (hs : s.issued = []) :
    runListing (l :: ls) env s = runListing ls (bindResult env (resultOf i) l) (s.returnResult i (resultOf i)) := by
  have hrun : issueAndWait s k = ⟨s.returnResult i (resultOf i), none⟩ := by
    have hissued : (s.issue k).issued = k :: [] := by simp [hs]
    rw [issueAndWait_idle hs]
    apply runStep_of_step_next
    rw [step_of_decode_ok hissued hk, exec_eq_returnResult_resultOf]
    simp [State.returnResult, hs]
  simp [runListing, hl, hrun]

/-- An operation's own result keeps every returned result correct (R94). -/
theorem resultsCorrect_returnResult {s : State} (hs : s.resultsCorrect) (i : Instr) :
    (s.returnResult i (resultOf i)).resultsCorrect := by
  intro e he
  rw [returnResult_returned, List.mem_append, List.mem_singleton] at he
  rcases he with he | rfl
  · exact hs e he
  · exact resultOf_toNat i

/-- A listing that is well-formed over the names bound so far runs to its end from any state with nothing in progress and
correct results, and adds one result for each line. -/
theorem runListing_of_wellFormed {ls : Listing} {env : List Binding} {s : State}
    (hwf : Listing.wellFormed (boundNames env) ls = true) (hs : s.issued = []) (hc : s.resultsCorrect) :
    ∃ (env' : List Binding) (s' : State), runListing ls env s = .finished env' s' ∧ s'.issued = [] ∧
      s'.returned.length = s.returned.length + ls.length ∧ s'.resultsCorrect := by
  induction ls generalizing env s with
  | nil => exact ⟨env, s, rfl, hs, rfl, hc⟩
  | cons l ls ih =>
    obtain ⟨hl, hls⟩ := Bool.and_eq_true_iff.mp hwf
    obtain ⟨k, i, hcmd, hk⟩ := exists_lineCommand_of_wellFormed hl
    rw [← boundNames_bindResult hl (resultOf i)] at hls
    obtain ⟨env', s', hrun, hidle, hlen, hcorrect⟩ :=
      ih (s := s.returnResult i (resultOf i)) hls hs (resultsCorrect_returnResult hc i)
    refine ⟨env', s', by rw [runListing_cons ls hcmd hk hs, hrun], hidle, ?_, hcorrect⟩
    simp only [hlen, returnResult_returned, List.length_append, List.length_cons, List.length_nil]
    omega

/-- Settles O44: after reset no name is bound, nothing is in progress and no result is returned. -/
theorem wellFormedListingFinishes : Obligations.WellFormedListingFinishes := by
  intro ls hls
  have hreset : State.reset.resultsCorrect := by simp [State.resultsCorrect]
  simpa using runListing_of_wellFormed (env := []) hls reset_issued hreset

end Sys2Proof.Machine
end

section
/-! PROOFS. Limbs and the limb_adder (40_limb_primitives.md R80 to R87): split and join, one carry and one borrow, and the
chains of them. -/

namespace Sys2Proof.Machine

/-! ### Split and join -/

/-- The weight of the high half of a doubled width, by the weights of its limbs. -/
theorem two_pow_two_mul (W : Nat) : 2 ^ (2 * W) = 2 ^ W * 2 ^ W := by rw [Nat.two_mul, Nat.pow_add]

theorem split_low_toNat (W : Nat) (v : BitVec (2 * W)) : (split W v).low.toNat = v.toNat % 2 ^ W := by
  rw [← split_toNat W v, Nat.add_mul_mod_self_left, BitVec.toNat_mod_cancel]

theorem split_high_toNat (W : Nat) (v : BitVec (2 * W)) : (split W v).high.toNat = v.toNat / 2 ^ W := by
  rw [← split_toNat W v, Nat.add_mul_div_left _ _ (Nat.two_pow_pos W), Nat.div_eq_of_lt (BitVec.isLt _), Nat.zero_add]

/-- The limbs of a join are the limbs joined (R80, R81). -/
theorem split_join (W : Nat) (p : Limbs W) : split W (join W p) = p := by
  have hlow : (split W (join W p)).low = p.low := BitVec.eq_of_toNat_eq (by
    rw [split_low_toNat, join_toNat, Nat.add_mul_mod_self_left, BitVec.toNat_mod_cancel])
  have hhigh : (split W (join W p)).high = p.high := BitVec.eq_of_toNat_eq (by
    rw [split_high_toNat, join_toNat, Nat.add_mul_div_left _ _ (Nat.two_pow_pos W), Nat.div_eq_of_lt p.low.isLt,
      Nat.zero_add])
  exact congrArg₂ Limbs.mk hlow hhigh

/-- The value of a pair, its high limb first (R81). -/
theorem high_mul_add_low (W : Nat) (p : Limbs W) :
    p.high.toNat * 2 ^ W + p.low.toNat = (join W p).toNat := by
  rw [join_toNat, Nat.mul_comm, Nat.add_comm]

/-- Settles O2: the split is division and remainder by `2^W`, and the two inverse laws. -/
theorem joinInvertsSplit : Obligations.JoinInvertsSplit := fun W =>
  ⟨fun v => ⟨split_low_toNat W v, split_high_toNat W v, join_split W v⟩,
    fun p => ⟨(high_mul_add_low W p).symm, split_join W p⟩⟩

/-! ### One carry -/

/-- The carry is the comparison with the first operand (R82). -/
theorem addW_carry_iff_lt_left {W : Nat} (x y : BitVec W) : (addW x y).k = true ↔ (addW x y).s.toNat < x.toNat :=
  decide_eq_true_iff

/-- The order of the operands does not matter to the sum and the carry. -/
theorem addW_comm {W : Nat} (x y : BitVec W) : addW x y = addW y x :=
  carrySum_eq_of_toNat_eq (by rw [addW_toNat, addW_toNat, Nat.add_comm])

/-- The carry is the comparison with the second operand (R82). -/
theorem addW_carry_iff_lt_right {W : Nat} (x y : BitVec W) : (addW x y).k = true ↔ (addW x y).s.toNat < y.toNat := by
  rw [addW_comm, addW_carry_iff_lt_left]

/-- The carry is 1 exactly when the exact sum does not fit `W` bits (R82). -/
theorem addW_carry_iff_le {W : Nat} (x y : BitVec W) : (addW x y).k = true ↔ 2 ^ W ≤ x.toNat + y.toNat := by
  have hsum := addW_toNat x y
  have hs := (addW x y).s.isLt
  cases hk : (addW x y).k <;> simp [hk] at hsum ⊢ <;> omega

/-- A sum that carried is at most `2^W - 2`, so a carry in does not carry again (R83). -/
theorem adcW_not_both_carries {W : Nat} (hW : 0 < W) (x y : BitVec W) (cin : Bool) :
    ¬((addW x y).k = true ∧ (addW (addW x y).s (bitValue W cin)).k = true) := by
  rintro ⟨h1, h2⟩
  have hsum := addW_toNat x y
  have hx := x.isLt
  have hy := y.isLt
  have hc := Bool.toNat_lt cin
  rw [h1, Bool.toNat_true] at hsum
  rw [addW_carry_iff_le, bitValue_toNat hW] at h2
  omega

/-- Settles O3: the exact values of `ADD_W` and `ADC_W`, the two comparisons, and at most one inner carry. -/
theorem limbAdderCarriesExactly : Obligations.LimbAdderCarriesExactly := by
  refine fun W x y cin hW => ⟨⟨BitVec.toNat_add x y, ?_, addW_carry_iff_lt_left x y, addW_carry_iff_lt_right x y⟩, ?_,
    adcW_not_both_carries hW x y cin⟩
  · rw [← addW_toNat x y, Nat.mul_comm, Nat.add_comm]
  · rw [← adcW_toNat hW x y cin, Nat.mul_comm, Nat.add_comm]

/-! ### The carry chain -/

theorem adcChain_length {W : Nat} (cin : Bool) (xy : List (BitVec W × BitVec W)) :
    (adcChain cin xy).1.length = xy.length := by
  induction xy generalizing cin with
  | nil => rfl
  | cons p rest ih => simp [adcChain, ih]

/-- The carry chain from a carry in is the addition of the values of the limbs (R84). -/
theorem adcChain_toNat {W : Nat} (hW : 0 < W) (cin : Bool) (xy : List (BitVec W × BitVec W)) :
    limbsValue (adcChain cin xy).1 + 2 ^ (xy.length * W) * (adcChain cin xy).2.toNat =
      limbsValue (xy.map Prod.fst) + limbsValue (xy.map Prod.snd) + cin.toNat := by
  induction xy generalizing cin with
  | nil => simp [adcChain, limbsValue]
  | cons p rest ih =>
    obtain ⟨x, y⟩ := p
    have hlimb := adcW_toNat hW x y cin
    have hrest := ih (adcW x y cin).k
    simp only [adcChain, limbsValue, List.map_cons, List.length_cons, Nat.succ_mul, Nat.pow_add]
    linear_combination hlimb + 2 ^ W * hrest

/-- The addition of two values of `2W` bits is that of their low limbs, and that of their high limbs with the carry (R84). -/
theorem addW_eq_of_limbs {W : Nat} {x y : BitVec (2 * W)} {t0 t1 : CarrySum W}
    (h0 : t0.s.toNat + 2 ^ W * t0.k.toNat = (split W x).low.toNat + (split W y).low.toNat)
    (h1 : t1.s.toNat + 2 ^ W * t1.k.toNat = (split W x).high.toNat + (split W y).high.toNat + t0.k.toNat) :
    addW x y = ⟨join W ⟨t0.s, t1.s⟩, t1.k⟩ := by
  apply carrySum_eq_of_toNat_eq
  rw [addW_toNat, join_toNat, ← split_toNat W x, ← split_toNat W y, two_pow_two_mul]
  linear_combination -h0 - 2 ^ W * h1

/-- Settles O4: the chain with no carry in, and its two limbs as those of the wide sum. -/
theorem carryChainIsWideAddition : Obligations.CarryChainIsWideAddition := by
  refine ⟨fun W xy hW => ⟨adcChain_length false xy, ?_⟩, fun W x y hW => ?_⟩
  · have h := adcChain_toNat hW false xy
    rw [Bool.toNat_false] at h
    rw [addN]
    linear_combination -h
  · rw [addW_eq_of_limbs (adcW_toNat hW _ _ false) (adcW_toNat hW _ _ _), split_join]
    rfl

/-! ### One borrow -/

/-- The borrow is the comparison of the operands (R85). -/
theorem subW_borrow_iff_lt {W : Nat} (x y : BitVec W) : (subW x y).w = true ↔ x.toNat < y.toNat :=
  decide_eq_true_iff

/-- The borrow is the comparison of the wrapped difference with the first operand (R85). -/
theorem subW_borrow_iff_lt_diff {W : Nat} (x y : BitVec W) :
    (subW x y).w = true ↔ x.toNat < (subW x y).d.toNat := by
  have hdiff := subW_toNat x y
  have hy := y.isLt
  cases hw : (subW x y).w <;> simp [hw] at hdiff ⊢ <;> omega

/-- A difference that borrowed is at least 1, so a borrow in does not borrow again (R86). -/
theorem sbbW_not_both_borrows {W : Nat} (hW : 0 < W) (x y : BitVec W) (win : Bool) :
    ¬((subW x y).w = true ∧ (subW (subW x y).d (bitValue W win)).w = true) := by
  rintro ⟨h1, h2⟩
  have hw := Bool.toNat_lt win
  rw [subW_borrow_iff_lt_diff] at h1
  rw [subW_borrow_iff_lt, bitValue_toNat hW] at h2
  omega

/-- A difference and its borrow are determined by the exact value they spell (R85). -/
theorem borrowDiff_eq_of_toNat_eq {N : Nat} {p q : BorrowDiff N}
    (h : p.d.toNat + 2 ^ N * q.w.toNat = q.d.toNat + 2 ^ N * p.w.toNat) : p = q := by
  obtain ⟨d, w⟩ := p
  obtain ⟨d', w'⟩ := q
  obtain ⟨rfl, rfl⟩ := CarrySum.mk.inj (carrySum_eq_of_toNat_eq (p := ⟨d, w'⟩) (q := ⟨d', w⟩) h)
  rfl

/-- Settles O5: the exact values of `SUB_W` and `SBB_W`, the two comparisons, and at most one inner borrow. -/
theorem limbSubtractorBorrowsExactly : Obligations.LimbSubtractorBorrowsExactly := by
  refine fun W x y win hW => ⟨⟨rfl, subW_borrow_iff_lt x y, subW_borrow_iff_lt_diff x y, ?_⟩, ?_,
    sbbW_not_both_borrows hW x y win⟩
  · have h := subW_toNat x y
    zify at h
    linear_combination -h
  · have h := sbbW_toNat hW x y win
    zify at h
    linear_combination -h

/-! ### The borrow chain -/

theorem sbbChain_length {W : Nat} (win : Bool) (xy : List (BitVec W × BitVec W)) :
    (sbbChain win xy).1.length = xy.length := by
  induction xy generalizing win with
  | nil => rfl
  | cons p rest ih => simp [sbbChain, ih]

/-- The borrow chain from a borrow in is the subtraction of the values of the limbs, written without subtraction (R87). -/
theorem sbbChain_toNat {W : Nat} (hW : 0 < W) (win : Bool) (xy : List (BitVec W × BitVec W)) :
    limbsValue (sbbChain win xy).1 + limbsValue (xy.map Prod.snd) + win.toNat =
      limbsValue (xy.map Prod.fst) + 2 ^ (xy.length * W) * (sbbChain win xy).2.toNat := by
  induction xy generalizing win with
  | nil => simp [sbbChain, limbsValue]
  | cons p rest ih =>
    obtain ⟨x, y⟩ := p
    have hlimb := sbbW_toNat hW x y win
    have hrest := ih (sbbW x y win).w
    simp only [sbbChain, limbsValue, List.map_cons, List.length_cons, Nat.succ_mul, Nat.pow_add]
    linear_combination hlimb + 2 ^ W * hrest

/-- The subtraction of two values of `2W` bits is that of their low limbs, and that of their high limbs with the borrow
(R87). -/
theorem subW_eq_of_limbs {W : Nat} {x y : BitVec (2 * W)} {t0 t1 : BorrowDiff W}
    (h0 : t0.d.toNat + (split W y).low.toNat = (split W x).low.toNat + 2 ^ W * t0.w.toNat)
    (h1 : t1.d.toNat + (split W y).high.toNat + t0.w.toNat = (split W x).high.toNat + 2 ^ W * t1.w.toNat) :
    subW x y = ⟨join W ⟨t0.d, t1.d⟩, t1.w⟩ := by
  have hwide := subW_toNat x y
  have hx := split_toNat W x
  have hy := split_toNat W y
  apply borrowDiff_eq_of_toNat_eq
  rw [join_toNat]
  rw [two_pow_two_mul] at hwide ⊢
  linear_combination hwide - h0 - 2 ^ W * h1 - hx + hy

/-- Settles O6: the chain with no borrow in, and its two limbs as those of the wide difference. -/
theorem borrowChainIsWideSubtraction : Obligations.BorrowChainIsWideSubtraction := by
  refine ⟨fun W xy hW => ⟨sbbChain_length false xy, ?_⟩, fun W x y hW => ?_⟩
  · have h := sbbChain_toNat hW false xy
    rw [Bool.toNat_false] at h
    zify at h
    rw [subN]
    linear_combination -h
  · rw [subW_eq_of_limbs (sbbW_toNat hW _ _ false) (sbbW_toNat hW _ _ _), split_join]
    rfl

end Sys2Proof.Machine
end

section
/-! PROOFS. The multipliers, the middle term, the recomposition and the accumulation (40_limb_primitives.md R88 to R93), each
at every width, with its bound. -/

namespace Sys2Proof.Machine

/-! ### Products and their bounds -/

/-- The product of two values of `n` bits is at most that of the largest ones (R88). -/
theorem toNat_mul_le {n : Nat} (x y : BitVec n) : x.toNat * y.toNat ≤ (2 ^ n - 1) ^ 2 := by
  rw [Nat.pow_two]
  exact Nat.mul_le_mul (Nat.le_sub_one_of_lt x.isLt) (Nat.le_sub_one_of_lt y.isLt)

/-- Settles O7: the exact product, bounded by that of the largest factors. -/
theorem baseMultiplierIsExact : Obligations.BaseMultiplierIsExact := by
  intro n x y
  rw [mulN_toNat]
  exact ⟨rfl, toNat_mul_le x y, fun h => by rw [h, Nat.mul_zero], fun h => by rw [h, Nat.mul_one]⟩

/-- The sum of two limbs is at most that of the largest ones (R89). -/
theorem wideSum_toNat_le {W : Nat} (x y : BitVec W) : (wideSum x y).toNat ≤ 2 ^ (W + 1) - 2 := by
  have hx := x.isLt
  have hy := y.isLt
  rw [wideSum_toNat, Nat.pow_succ]
  omega

/-- Settles O8: the exact product, bounded by that of the largest sums. -/
theorem widenedProductIsExact : Obligations.WidenedProductIsExact := by
  refine fun W M hM => ⟨wmul_toNat_of_exact hM, fun a0 a1 b0 b1 => ?_⟩
  rw [wmul_toNat_of_exact hM, Nat.pow_two]
  exact Nat.mul_le_mul (wideSum_toNat_le a0 a1) (wideSum_toNat_le b0 b1)

/-! ### The middle term -/

/-- The sum of two cross products is at most twice the largest product (R90). -/
theorem cross_sum_le {W : Nat} (a0 a1 b0 b1 : BitVec W) :
    a0.toNat * b1.toNat + a1.toNat * b0.toNat ≤ 2 * (2 ^ W - 1) ^ 2 := by
  rw [Nat.two_mul]
  exact Nat.add_le_add (toNat_mul_le a0 b1) (toNat_mul_le a1 b0)

/-- Settles O9: the two middle terms agree, and the carry of `MIDSUM_W` is that of the sum of the cross products. -/
theorem middleTermsAgreeAndAreExact : Obligations.MiddleTermsAgreeAndAreExact := by
  refine fun W M hM a0 a1 b0 b1 => ⟨midSub_eq_midSum_of_exact hM a0 a1 b0 b1, ?_, cross_sum_le a0 a1 b0 b1, ?_⟩
  · rw [← midSum_toNat_of_exact hM, Nat.mul_comm, Nat.add_comm]
  · rw [midSum, addW_carry_iff_le, hM, hM]

/-! ### Recomposition -/

/-- The low limb of a value at weight `2^W` (R92). -/
theorem low_limb_shifted_toNat {W : Nat} (x : BitVec (2 * W)) :
    ((x.extractLsb' 0 W).setWidth (2 * W) <<< W).toNat = 2 ^ W * (x.toNat % 2 ^ W) := by
  have hlt : 2 ^ W * (x.toNat % 2 ^ W) < 2 ^ (2 * W) := by
    rw [two_pow_two_mul]
    exact Nat.mul_lt_mul_of_pos_left (Nat.mod_lt _ (Nat.two_pow_pos W)) (Nat.two_pow_pos W)
  rw [shifted_toNat _ (by omega : W ≤ 2 * W), BitVec.extractLsb'_toNat, Nat.shiftRight_zero, Nat.mod_eq_of_lt hlt]

/-- The high half of `RECOMB_W` before its wrap (R92). -/
def recombHigh (W : Nat) (z0 : BitVec (2 * W)) (mid : CarrySum (2 * W)) (z2 : BitVec (2 * W)) : Nat :=
  z2.toNat + mid.s.toNat / 2 ^ W + mid.k.toNat * 2 ^ W
    + (addW z0 ((mid.s.extractLsb' 0 W).setWidth (2 * W) <<< W)).k.toNat

/-- The high half of `RECOMB_W` is `recombHigh`, wrapped (R92). -/
theorem recomb_high_eq_recombHigh_mod (W : Nat) (z0 : BitVec (2 * W)) (mid : CarrySum (2 * W)) (z2 : BitVec (2 * W)) :
    (recomb W z0 mid z2).high.toNat = recombHigh W z0 mid z2 % 2 ^ (2 * W) := by
  rw [recomb_high_toNat, recombHigh, addW_carry, low_limb_shifted_toNat, Nat.mul_comm mid.k.toNat]

/-- The low half of `RECOMB_W` and its high half before the wrap are the three parts in their places (R92). -/
theorem recomb_low_add_recombHigh (W : Nat) (z0 : BitVec (2 * W)) (mid : CarrySum (2 * W)) (z2 : BitVec (2 * W)) :
    (recomb W z0 mid z2).low.toNat + 2 ^ (2 * W) * recombHigh W z0 mid z2 =
      z0.toNat + 2 ^ W * (mid.k.toNat * 2 ^ (2 * W) + mid.s.toNat) + 2 ^ (2 * W) * z2.toNat := by
  have hlow := addW_toNat z0 ((mid.s.extractLsb' 0 W).setWidth (2 * W) <<< W)
  have hs := Nat.mod_add_div mid.s.toNat (2 ^ W)
  rw [low_limb_shifted_toNat] at hlow
  rw [recomb, recombHigh]
  linear_combination hlow + 2 ^ W * hs + (mid.s.toNat / 2 ^ W) * two_pow_two_mul W

/-- Settles O10: the three parts spell `a * b`, which is below `2^(4W)`, so the wrap of the high half removes nothing. -/
theorem recompositionIsExact : Obligations.RecompositionIsExact := by
  intro W a b z0 z2 mid hz0 hz2 hmid
  have hsum : (recomb W z0 mid z2).low.toNat + 2 ^ (2 * W) * recombHigh W z0 mid z2 = a.toNat * b.toNat := by
    rw [recomb_low_add_recombHigh, hmid, hz0, hz2, two_pow_two_mul, ← split_toNat W a, ← split_toNat W b]
    ring
  have hlt : recombHigh W z0 mid z2 < 2 ^ (2 * W) := by
    have hab : a.toNat * b.toNat < 2 ^ (2 * W) * 2 ^ (2 * W) := Nat.mul_lt_mul'' a.isLt b.isLt
    exact Nat.lt_of_mul_lt_mul_left (Nat.lt_of_le_of_lt (Nat.le_add_left _ _) (hsum ▸ hab))
  have hhigh : (recomb W z0 mid z2).high.toNat = recombHigh W z0 mid z2 := by
    rw [recomb_high_eq_recombHigh_mod, Nat.mod_eq_of_lt hlt]
  exact ⟨by rw [hhigh, ← hsum, Nat.mul_comm, Nat.add_comm], hhigh⟩

/-! ### Accumulation -/

/-- With nothing to add `ACC_N` leaves the pair unchanged (R93). -/
theorem acc_of_zero {N : Nat} (p : Limbs N) {c : BitVec N} (hc : c.toNat = 0) : acc p c = p := by
  have hjoin : join N (acc p c) = join N p := BitVec.eq_of_toNat_eq (by
    rw [join_acc_toNat, hc, Nat.add_zero, BitVec.toNat_mod_cancel])
  rw [← split_join N (acc p c), hjoin, split_join]

/-- Settles O11: the value of the pair, through its join. -/
theorem accumulatorAddsWithCarry : Obligations.AccumulatorAddsWithCarry := by
  intro N p c
  rw [high_mul_add_low, high_mul_add_low]
  exact ⟨join_acc_toNat p c, acc_of_zero p, fun x y hp => join_acc_toNat_of_product hp c⟩

end Sys2Proof.Machine
end

section
/-! PROOFS. The reference value (40_limb_primitives.md R94 to R99): every step keeps the results correct, the value's bound,
and the laws that hold of every operation because it returns this value. -/

namespace Sys2Proof.Machine

/-! ### The invariant -/

/-- Settles O39: a step changes nothing, or it adds the result of the operation it takes, which is correct. -/
theorem stepKeepsResultsCorrect : Obligations.StepKeepsResultsCorrect := by
  intro s t hs hstep
  rcases step_next_cases hstep with ⟨-, rfl⟩ | ⟨k, rest, i, -, -, hexec⟩
  · exact hs
  · rw [exec_eq_returnResult_resultOf] at hexec
    obtain rfl := Host.Outcome.next.inj hexec
    exact resultsCorrect_returnResult (s := { s with issued := rest }) hs i

/-! ### Bounds of the operands and of the exact value -/

theorem factorA_lt (i : Instr) : i.factorA < 2 ^ i.width.bits := by cases i <;> exact BitVec.isLt _
theorem factorB_lt (i : Instr) : i.factorB < 2 ^ i.width.bits := by cases i <;> exact BitVec.isLt _
theorem addend_lt (i : Instr) : i.addend < 2 ^ i.width.bits := by cases i <;> exact BitVec.isLt _

theorem width_bits_le_outBits (w : Width) : w.bits ≤ w.outBits := by cases w <;> decide

/-- The exact value at all ones (R95, R99). -/
theorem all_ones_mul_add (n : Nat) : (2 ^ n - 1) * (2 ^ n - 1) + (2 ^ n - 1) = 2 ^ (2 * n) - 2 ^ n := by
  rw [← Nat.mul_succ, Nat.succ_eq_add_one, Nat.sub_add_cancel Nat.one_le_two_pow, Nat.sub_mul, Nat.one_mul,
    two_pow_two_mul]

/-- The exact value of an operation is at most that at all ones (R95). -/
theorem exact_le (i : Instr) :
    i.factorA * i.factorB + i.addend ≤ 2 ^ (2 * i.width.bits) - 2 ^ i.width.bits := by
  have ha := Nat.le_sub_one_of_lt (factorA_lt i)
  have hb := Nat.le_sub_one_of_lt (factorB_lt i)
  have hc := Nat.le_sub_one_of_lt (addend_lt i)
  calc i.factorA * i.factorB + i.addend
      ≤ (2 ^ i.width.bits - 1) * (2 ^ i.width.bits - 1) + (2 ^ i.width.bits - 1) :=
        Nat.add_le_add (Nat.mul_le_mul ha hb) hc
    _ = 2 ^ (2 * i.width.bits) - 2 ^ i.width.bits := all_ones_mul_add _

/-- Settles O19: the bound, its value at all ones, and at width 256 the quotient by `2^256` as what is dropped. -/
theorem exactAt64And128WrapsAt256 : Obligations.ExactAt64And128WrapsAt256 := by
  refine ⟨fun i hi => ⟨reference_eq_exact hi, exact_le i⟩, fun i ha hb hc => ?_, fun i s hi => ?_⟩
  · rw [ha, hb, hc, all_ones_mul_add]
  · refine ⟨resultOf i, (i.factorA * i.factorB + i.addend) / 2 ^ 256, exec_eq_returnResult_resultOf i s, ?_⟩
    rw [resultOf_toNat, reference, refMadd, hi]
    exact (Nat.div_add_mod' _ _).symm

/-! ### The other variant and the exchanged factors -/

/-- The reference value does not depend on the variant (R96). -/
theorem reference_otherVariant (i : Instr) : reference i.otherVariant = reference i := by cases i <;> rfl

/-- The reference value does not depend on the order of the factors (R99, law 4). -/
theorem reference_swapFactors (i : Instr) : reference i.swapFactors = reference i := by
  have hwidth : i.swapFactors.width = i.width := by cases i <;> rfl
  have hA : i.swapFactors.factorA = i.factorB := by cases i <;> rfl
  have hB : i.swapFactors.factorB = i.factorA := by cases i <;> rfl
  have hc : i.swapFactors.addend = i.addend := by cases i <;> rfl
  rw [reference, hwidth, hA, hB, hc, refMadd, Nat.mul_comm, reference, refMadd]

/-- Operations with the same reference value return the same bits (R94). -/
theorem resultOf_congr {i j : Instr} (h : reference i = reference j) : resultOf i = resultOf j :=
  BitVec.eq_of_toNat_eq (by rw [resultOf_toNat, resultOf_toNat, h])

/-- An operation completes with the value of any operation of the same reference value. -/
theorem exec_eq_of_reference_eq {i j : Instr} (h : reference i = reference j) (s : State) :
    exec i s = .next (s.returnResult i (resultOf j)) := by
  rw [exec_eq_returnResult_resultOf, resultOf_congr h]

/-- Settles O20: the other variant has the same reference value. -/
theorem variantsReturnTheSameBits : Obligations.VariantsReturnTheSameBits := fun i s =>
  ⟨resultOf i, resultOf_toNat i, exec_eq_returnResult_resultOf i s,
    exec_eq_of_reference_eq (reference_otherVariant i) s⟩

/-! ### The delegated multiplication -/

/-- Settles O21: either choice is the exact product, so the four wider datapaths have the same value with either. -/
theorem subMultiplierChoiceIsUnobservable : Obligations.SubMultiplierChoiceIsUnobservable := by
  refine ⟨delegate64_toNat, delegate128_toNat, fun v a b c => ⟨?_, ?_⟩, fun v a b c => ⟨?_, ?_⟩⟩
  · exact BitVec.eq_of_toNat_eq ((madd128SWith_toNat v a b c).trans (madd128SWith_toNat _ a b c).symm)
  · exact BitVec.eq_of_toNat_eq ((madd128KWith_toNat v a b c).trans (madd128KWith_toNat _ a b c).symm)
  · exact BitVec.eq_of_toNat_eq ((madd256SWith_toNat v a b c).trans (madd256SWith_toNat _ a b c).symm)
  · exact BitVec.eq_of_toNat_eq ((madd256KWith_toNat v a b c).trans (madd256KWith_toNat _ a b c).symm)

/-! ### The five arithmetic laws -/

/-- A zero factor leaves the accumulate term, which fits the result width (R99, law 1). -/
theorem reference_of_zero_factor {i : Instr} (h : i.factorA = 0 ∨ i.factorB = 0) : reference i = i.addend := by
  have hc : i.addend < 2 ^ i.width.outBits :=
    Nat.lt_of_lt_of_le (addend_lt i) (Nat.pow_le_pow_right (by omega) (width_bits_le_outBits _))
  rw [reference, refMadd, Nat.mul_eq_zero.mpr h, Nat.zero_add, Nat.mod_eq_of_lt hc]

/-- A zero accumulate term leaves the product, wrapped to the result width (R99, law 2). -/
theorem reference_of_zero_addend {i : Instr} (h : i.addend = 0) :
    reference i = i.factorA * i.factorB % 2 ^ i.width.outBits := by
  rw [reference, refMadd, h, Nat.add_zero]

/-- At all ones the reference value is `2^(2W) - 2^W`, wrapped to the result width (R99, law 5). -/
theorem reference_of_all_ones {i : Instr} (ha : i.factorA = 2 ^ i.width.bits - 1)
    (hb : i.factorB = 2 ^ i.width.bits - 1) (hc : i.addend = 2 ^ i.width.bits - 1) :
    reference i = (2 ^ (2 * i.width.bits) - 2 ^ i.width.bits) % 2 ^ i.width.outBits := by
  rw [reference, refMadd, ha, hb, hc, all_ones_mul_add]

/-- The high half of a doubled width vanishes in the wrap to that width: `2^(2n) - 2^n` is a multiple of `2^n`. -/
theorem two_pow_two_mul_sub_mod (n : Nat) : (2 ^ (2 * n) - 2 ^ n) % 2 ^ n = 0 := by
  rw [two_pow_two_mul, ← Nat.sub_one_mul, Nat.mul_mod_left]

/-- Settles O24: each law is one of the reference value, which the operation returns. -/
theorem arithmeticLawsOfEveryOperation : Obligations.ArithmeticLawsOfEveryOperation := by
  intro i s
  have hr := resultOf_toNat i
  refine ⟨resultOf i, exec_eq_returnResult_resultOf i s, fun h => ?_, fun h => ?_, fun ⟨ha, _, hc⟩ => ?_,
    exec_eq_of_reference_eq (reference_swapFactors i) s, fun ⟨ha, hb, hc⟩ => ?_⟩
  · rw [hr, reference_of_zero_factor h]
  · rw [hr, reference_of_zero_addend h]
  · exact BitVec.eq_of_toNat_eq (by rw [hr, reference_of_zero_factor (.inl ha), hc]; rfl)
  · rw [hr, reference_of_all_ones ha hb hc]
    refine ⟨fun hw => ?_, fun hw => ?_, fun hw => ?_⟩
    · rw [hw]
      decide
    · rw [hw]
      decide
    · have hout : i.width.outBits = i.width.bits := by
        rw [hw]
        rfl
      rw [hout, two_pow_two_mul_sub_mod]

end Sys2Proof.Machine
end

section
/-! PROOFS. The schoolbook family (41_schoolbook.md R110 to R112): the exact operations, the native form at width 64, and
the reduced form at width 256. -/

namespace Sys2Proof.Machine

/-! ### The exact operations -/

/-- An operation of width 64 or 128 returns its exact value (R110, R111). -/
theorem resultOf_toNat_eq_exact {i : Instr} (hi : i.width ≠ .w256) :
    (resultOf i).toNat = i.factorA * i.factorB + i.addend := by
  rw [resultOf_toNat, reference_eq_exact hi]

/-- An operation of width 64 or 128 returns at most its exact value at all ones (R110, R111). -/
theorem resultOf_toNat_le {i : Instr} (hi : i.width ≠ .w256) :
    (resultOf i).toNat ≤ 2 ^ (2 * i.width.bits) - 2 ^ i.width.bits := by
  rw [resultOf_toNat_eq_exact hi]
  exact exact_le i

/-- The native form, over operands widened to twice their width, is the exact value: nothing wraps (R110). -/
theorem native_toNat {n : Nat} (a b c : BitVec n) :
    (a.setWidth (2 * n) * b.setWidth (2 * n) + c.setWidth (2 * n)).toNat = a.toNat * b.toNat + c.toNat := by
  have hprod : (a.setWidth (2 * n) * b.setWidth (2 * n)).toNat = a.toNat * b.toNat := mulN_toNat a b
  rw [BitVec.toNat_add, hprod, BitVec.toNat_setWidth, Nat.add_mod_mod, Nat.mod_eq_of_lt (mul_add_lt_two_pow a b c)]

/-- The limb form of `MADD64.S` and its native form give the same bits (R110, decision D18). -/
theorem madd64S_eq_native (a b c : Word64) :
    madd64S a b c = a.setWidth 128 * b.setWidth 128 + c.setWidth 128 :=
  BitVec.eq_of_toNat_eq ((madd64S_toNat a b c).trans (native_toNat a b c).symm)

/-- Settles O12: the exact value and its bound, and the native form under the result field. -/
theorem madd64SReturnsExactValue : Obligations.Madd64SReturnsExactValue := by
  intro a b c s
  have hw : (Instr.madd64S a b c).width ≠ .w256 := by simp [Instr.width]
  exact ⟨rfl, resultOf (.madd64S a b c), exec_eq_returnResult_resultOf _ s, resultOf_toNat_eq_exact hw,
    resultOf_toNat_le hw, congrArg resultField (madd64S_eq_native a b c)⟩

/-- Settles O13: the exact value and its bound. -/
theorem madd128SReturnsExactValue : Obligations.Madd128SReturnsExactValue := by
  intro a b c s
  have hw : (Instr.madd128S a b c).width ≠ .w256 := by simp [Instr.width]
  exact ⟨rfl, resultOf (.madd128S a b c), exec_eq_returnResult_resultOf _ s, resultOf_toNat_eq_exact hw,
    resultOf_toNat_le hw⟩

/-! ### The reduced form at width 256 -/

/-- A value added into the high limb of a pair counts at weight `2^W`, wrapped to `2W` bits (R112). -/
theorem join_high_add_toNat {W : Nat} (l h x : BitVec W) :
    (join W ⟨l, h + x⟩).toNat = ((join W ⟨l, h⟩).toNat + 2 ^ W * x.toNat) % 2 ^ (2 * W) := by
  have hhigh : 2 ^ W * ((h.toNat + x.toNat) % 2 ^ W) = 2 ^ W * (h.toNat + x.toNat) % 2 ^ (2 * W) := by
    rw [two_pow_two_mul, Nat.mul_mod_mul_left]
  have hlt := (join W ⟨l, h + x⟩).isLt
  rw [← Nat.mod_eq_of_lt hlt, join_toNat, join_toNat, BitVec.toNat_add, hhigh, Nat.add_mod_mod, Nat.mul_add,
    Nat.add_assoc]

/-- Of a value at weight `2^W` only the low limb lies below `2^(2W)` (R112). -/
theorem mul_split_low_toNat {W : Nat} (v : BitVec (2 * W)) :
    2 ^ W * (split W v).low.toNat = 2 ^ W * v.toNat % 2 ^ (2 * W) := by
  rw [split_low_toNat, two_pow_two_mul, Nat.mul_mod_mul_left]

/-- Adding `c` limb by limb, its low limb with the carry and its high limb with a wrap, adds `c` mod `2^(2W)` (R112). -/
theorem join_acc_limbs_toNat {W : Nat} (p : Limbs W) (c : BitVec (2 * W)) :
    (join W (acc ⟨p.low, p.high + (split W c).high⟩ (split W c).low)).toNat =
      ((join W p).toNat + c.toNat) % 2 ^ (2 * W) := by
  rw [join_acc_toNat, join_high_add_toNat, Nat.mod_add_mod, Nat.add_assoc, Nat.add_comm (2 ^ W * _), split_toNat]

/-- The product part of the reduced form: the low partial product, with the low limbs of the two cross products added
into its high limb (R112). -/
def reducedProduct (W : Nat) (M : BitVec W → BitVec W → BitVec (2 * W)) (a b : BitVec (2 * W)) : Limbs W :=
  let p00 := split W (M (split W a).low (split W b).low)
  let p01 := split W (M (split W a).low (split W b).high)
  let p10 := split W (M (split W a).high (split W b).low)
  ⟨p00.low, p00.high + p01.low + p10.low⟩

/-- The reduced form of `MADD256.S` is its product part, with `c` added limb by limb (R112). -/
theorem madd256SReduced_eq_join_acc (v : Variant) (a b c : Word256) :
    madd256SReduced v a b c =
      join 128 (acc ⟨(reducedProduct 128 (delegate128 v) a b).low,
        (reducedProduct 128 (delegate128 v) a b).high + (split 128 c).high⟩ (split 128 c).low) := rfl

/-- The reduced product is the product mod `2^(2W)`: the fourth partial product has no effect (R112). -/
theorem join_reducedProduct_toNat {W : Nat} {M : BitVec W → BitVec W → BitVec (2 * W)}
    (hM : ∀ x y, (M x y).toNat = x.toNat * y.toNat) (a b : BitVec (2 * W)) :
    (join W (reducedProduct W M a b)).toNat = a.toNat * b.toNat % 2 ^ (2 * W) := by
  have hproduct : a.toNat * b.toNat =
      (split W a).low.toNat * (split W b).low.toNat + 2 ^ W * ((split W a).low.toNat * (split W b).high.toNat)
        + 2 ^ W * ((split W a).high.toNat * (split W b).low.toNat)
        + 2 ^ (2 * W) * ((split W a).high.toNat * (split W b).high.toNat) := by
    rw [← split_toNat W a, ← split_toNat W b, two_pow_two_mul]
    ring
  rw [hproduct, Nat.add_mul_mod_self_left, reducedProduct, join_high_add_toNat, join_high_add_toNat]
  simp only [mul_split_low_toNat, Nat.add_mod_mod, Nat.mod_add_mod, join_toNat, split_toNat, hM]

/-- The reduced form returns the wrapped value, with `M_128` of either variant (R112, decision D20). -/
theorem madd256SReduced_toNat (v : Variant) (a b c : Word256) :
    (madd256SReduced v a b c).toNat = (a.toNat * b.toNat + c.toNat) % 2 ^ 256 := by
  rw [madd256SReduced_eq_join_acc, join_acc_limbs_toNat, join_reducedProduct_toNat (delegate128_toNat v),
    Nat.mod_add_mod]

/-- Settles O14: the operation's wrapped value, which the reduced form has too. -/
theorem madd256SReturnsWrappedValue : Obligations.Madd256SReturnsWrappedValue := by
  intro a b c s
  have hr : (resultOf (.madd256S a b c)).toNat = (a.toNat * b.toNat + c.toNat) % 2 ^ 256 := resultOf_toNat _
  exact ⟨rfl, resultOf (.madd256S a b c), exec_eq_returnResult_resultOf _ s, hr,
    fun v => BitVec.eq_of_toNat_eq ((madd256SReduced_toNat v a b c).trans hr.symm)⟩

end Sys2Proof.Machine
end

section
/-! PROOFS. The Karatsuba family (42_karatsuba.md R130 to R132): the exact operations, and the reduced form at width 256,
which is that of the schoolbook family. -/

namespace Sys2Proof.Machine

/-! ### The exact operations -/

/-- Settles O15: the value the operation returns is the exact one at width 64. -/
theorem madd64KReturnsExactValue : Obligations.Madd64KReturnsExactValue := by
  intro a b c s
  have hw : (Instr.madd64K a b c).width ≠ .w256 := by simp [Instr.width]
  exact ⟨rfl, resultOf (.madd64K a b c), exec_eq_returnResult_resultOf _ s, resultOf_toNat_eq_exact hw⟩

/-- Settles O16: the value the operation returns is the exact one at width 128. -/
theorem madd128KReturnsExactValue : Obligations.Madd128KReturnsExactValue := by
  intro a b c s
  have hw : (Instr.madd128K a b c).width ≠ .w256 := by simp [Instr.width]
  exact ⟨rfl, resultOf (.madd128K a b c), exec_eq_returnResult_resultOf _ s, resultOf_toNat_eq_exact hw⟩

/-! ### The reduced form at width 256 -/

/-- Mod `2^W` the Karatsuba middle term is the sum of the low limbs of the two cross products: no borrow is needed
(R132). -/
theorem low_middle_eq_low_cross_sum {W : Nat} {M : BitVec W → BitVec W → BitVec (2 * W)}
    (hM : ∀ x y, (M x y).toNat = x.toNat * y.toNat) (a0 a1 b0 b1 : BitVec W) :
    (wmul W M (wideSum a0 a1) (wideSum b0 b1)).extractLsb' 0 W - (split W (M a0 b0)).low - (split W (M a1 b1)).low =
      (split W (M a0 b1)).low + (split W (M a1 b0)).low := by
  have hproduct : (a0.toNat + a1.toNat) * (b0.toNat + b1.toNat) =
      a0.toNat * b1.toNat + a1.toNat * b0.toNat + a1.toNat * b1.toNat + a0.toNat * b0.toNat := by ring
  rw [sub_eq_iff_eq_add, sub_eq_iff_eq_add]
  apply BitVec.eq_of_toNat_eq
  simp only [BitVec.extractLsb'_toNat, Nat.shiftRight_zero, BitVec.toNat_add, split_low_toNat, wmul_toNat_of_exact hM,
    wideSum_toNat, hM, hproduct, Nat.mod_add_mod, Nat.add_mod_mod]

/-- The two reduced forms give the same bits: their middle terms agree mod `2^128` (R112, R132). -/
theorem madd256KReduced_eq_madd256SReduced (v : Variant) (a b c : Word256) :
    madd256KReduced v a b c = madd256SReduced v a b c := by
  have hmiddle := low_middle_eq_low_cross_sum (delegate128_toNat v) (split 128 a).low (split 128 a).high
    (split 128 b).low (split 128 b).high
  simp only [madd256KReduced, madd256SReduced, addW, hmiddle, BitVec.add_assoc]

/-- Settles O17: the operation's wrapped value, which the reduced form has too. -/
theorem madd256KReturnsWrappedValue : Obligations.Madd256KReturnsWrappedValue := by
  intro a b c s
  have hr : (resultOf (.madd256K a b c)).toNat = (a.toNat * b.toNat + c.toNat) % 2 ^ 256 := resultOf_toNat _
  refine ⟨rfl, resultOf (.madd256K a b c), exec_eq_returnResult_resultOf _ s, hr, fun v => BitVec.eq_of_toNat_eq ?_⟩
  rw [madd256KReduced_eq_madd256SReduced, madd256SReduced_toNat, hr]

end Sys2Proof.Machine
end

section
/-! PROOFS. Exceptions (60_exceptions.md): no operation can fail (R160), and a refusal marks its run for good (R162). -/

namespace Sys2Proof.Machine

/-! ### Marked runs -/

/-- An unmarked run whose machine's step is refused keeps the machine and takes the mark (R162). -/
theorem runStep_of_step_refused {s : State} {why : Refusal} (h : step s = .refused why) :
    Run.step ⟨s, none⟩ = ⟨s, some why⟩ := by
  simp [Run.step, h]

/-- A marked run takes no further step (log 5). -/
theorem runStep_of_marked (s : State) (why : Refusal) : Run.step ⟨s, some why⟩ = ⟨s, some why⟩ := rfl

theorem steps_of_marked (n : Nat) (s : State) (why : Refusal) : Run.steps n ⟨s, some why⟩ = ⟨s, some why⟩ := by
  induction n with
  | zero => exact steps_zero _
  | succ n ih => rw [steps_succ, runStep_of_marked, ih]

/-- A marked run has no outcome (70_reset_and_hazards.md R188). -/
theorem outcome_of_marked (s : State) (why : Refusal) : Run.outcome ⟨s, some why⟩ = none := by
  simp [Run.outcome]

/-- Settles O35: the first step takes the mark, and a marked run stays as it is. -/
theorem refusalMarksTheRunForGood : Obligations.RefusalMarksTheRunForGood := by
  intro s k rest n hs hop
  have hrefused : step s = .refused (.reservedOp k.op) := step_of_decode_error hs (decode_of_reserved hop)
  have hrun : Run.steps (n + 1) ⟨s, none⟩ = ⟨s, some (.reservedOp k.op)⟩ := by
    rw [steps_succ, runStep_of_step_refused hrefused, steps_of_marked]
  refine ⟨hrefused, hrun, ?_⟩
  rw [hrun, outcome_of_marked]

/-! ### No failure -/

/-- Settles O33: every operation returns its result, and no fault exists for a step to answer. -/
theorem noOperationCanFail : Obligations.NoOperationCanFail :=
  ⟨fun i s => ⟨s.returnResult i (resultOf i), exec_eq_returnResult_resultOf i s⟩, fun _ f => nomatch f⟩

end Sys2Proof.Machine
end

section
/-! PROOFS. Reset (70_reset_and_hazards.md R180), sampling at issue (R185), completion and outcome of a run (R187, R188), and
the precision of the middle term (R182, R189). -/

namespace Sys2Proof.Machine

/-! ### Reset and the sampling of the ports -/

/-- Settles O40: no result has been returned. -/
theorem resetResultsAreCorrect : Obligations.ResetResultsAreCorrect := by
  simp [Obligations.ResetResultsAreCorrect, State.resultsCorrect]

/-- Settles O41: the two empty records, and the idle step. -/
theorem resetHoldsNothing : Obligations.ResetHoldsNothing :=
  ⟨reset_issued, reset_returned, step_of_issued_nil reset_issued⟩

/-- Driving the ports, any number of times, leaves the machine unchanged (R185). -/
theorem foldl_drive_machine (ports : List Command) (b : Bench) : (ports.foldl Bench.drive b).machine = b.machine := by
  induction ports generalizing b with
  | nil => rfl
  | cons p ports ih => rw [List.foldl_cons, ih, drive_machine]

/-- Settles O42: no later drive reaches the machine, and issue puts the ports' command behind those in progress. -/
theorem operandsAreSampledAtIssue : Obligations.OperandsAreSampledAtIssue := fun b later =>
  ⟨foldl_drive_machine later b.issue, issue_issued b.machine b.ports, issue_returned b.machine b.ports⟩

/-! ### Completion and outcome of a run -/

/-- Settles O38: the commands decode, and each step adds the result of the oldest one's operation. -/
theorem everyIssuedCommandCompletes : Obligations.EveryIssuedCommandCompletes := by
  intro s hs
  obtain ⟨is, his⟩ := exists_map_decode_eq hs
  have hlen : s.issued.length = is.length := by simpa using congrArg List.length his
  exact ⟨is.map returnedFor, steps_of_map_decode_eq his s.returned, by rw [List.length_map, hlen]⟩

/-- The value required of a command that decodes is that of its operation (R94). -/
theorem commandReference_of_decode_ok {k : Command} {i : Instr} (hk : decode k = .ok i) :
    commandReference k = some (reference i) := by
  simp only [commandReference, hk]

/-- The results of commands that decode are, in order, the values required of them (R94). -/
theorem map_resultOf_toNat_eq {ks : List Command} {is : List Instr} (h : ks.map decode = is.map .ok) :
    (is.map resultOf).map (fun r => some r.toNat) = ks.map commandReference := by
  induction ks generalizing is with
  | nil => simp [List.map_eq_nil_iff.mp h.symm]
  | cons k ks ih =>
    obtain ⟨i, is, rfl, hk, his⟩ := List.map_eq_cons_iff.mp h.symm
    simp only [List.map_cons, ih his.symm, resultOf_toNat, commandReference_of_decode_ok hk.symm]

/-- A run with a reserved command among those in progress has no outcome: the commands before it are served, and then the
run is marked for good (60_exceptions.md R162, 70_reset_and_hazards.md R188). -/
theorem outcome_steps_of_reserved {ks : List Command} (h : ∃ k ∈ ks, selectsOperation k = false)
    (done : List Returned) : (Run.steps ks.length ⟨⟨ks, done⟩, none⟩).outcome = none := by
  induction ks generalizing done with
  | nil => simp at h
  | cons k ks ih =>
    cases hk : decode k with
    | ok i =>
      have hselects : selectsOperation k = true := (selectsOperation_iff_decode k).mpr ⟨i, hk⟩
      have hrest : ∃ x ∈ ks, selectsOperation x = false := by simpa [hselects] using h
      rw [List.length_cons, steps_succ, runStep_of_decode_ok hk, ih hrest]
    | error e =>
      obtain ⟨hop, -⟩ := decode_eq_error_iff.mp hk
      obtain ⟨-, -, hnone⟩ := refusalMarksTheRunForGood ⟨k :: ks, done⟩ k ks ks.length rfl hop
      exact hnone

/-- Settles O36: accepted commands return the reference values of their operations, and a reserved one marks the run. -/
theorem runOutcomeIsReferenceOfEachCommand : Obligations.RunOutcomeIsReferenceOfEachCommand := by
  refine fun ks => ⟨fun hks => ?_, fun hks => ?_⟩
  · obtain ⟨is, his⟩ := exists_map_decode_eq hks
    exact ⟨is.map resultOf, runOutcome_of_map_decode_eq his, map_resultOf_toNat_eq his⟩
  · rw [runOutcome, start_eq, outcome_steps_of_reserved hks]

/-! ### The precision of the middle term -/

/-- `mid` of `MIDSUB_W` is the wrap-around difference in `2W` bits (R182). -/
theorem midSub_s (W : Nat) (m : BitVec (2 * W + 2)) (z0 z2 : BitVec (2 * W)) :
    (midSub W m z0 z2).s = m.setWidth (2 * W) - z0 - z2 := by
  simp only [midSub, subW, ← BitVec.setWidth_eq_extractLsb' (Nat.le_add_right (2 * W) 2)]

/-- Recomposition without the carry of the middle term falls short of the product by that carry at its weight `2^(3W)`
(R182). -/
theorem join_recomb_dropped_carry_toNat {W : Nat} {a b z0 z2 : BitVec (2 * W)} {mid : CarrySum (2 * W)}
    (hz0 : z0.toNat = (split W a).low.toNat * (split W b).low.toNat)
    (hz2 : z2.toNat = (split W a).high.toNat * (split W b).high.toNat)
    (hmid : mid.s.toNat + 2 ^ (2 * W) * mid.k.toNat =
      (split W a).low.toNat * (split W b).high.toNat + (split W a).high.toNat * (split W b).low.toNat) :
    (join (2 * W) (recomb W z0 ⟨mid.s, false⟩ z2)).toNat + 2 ^ (3 * W) * mid.k.toNat = a.toNat * b.toNat := by
  have hlt : a.toNat * b.toNat < 2 ^ (2 * (2 * W)) := by
    simpa using mul_add_lt_two_pow a b 0#(2 * W)
  have hcube : 2 ^ (3 * W) = 2 ^ W * 2 ^ (2 * W) := by rw [← Nat.pow_add]; congr 1; omega
  have hsum : z0.toNat + 2 ^ W * mid.s.toNat + 2 ^ (2 * W) * z2.toNat + 2 ^ (3 * W) * mid.k.toNat =
      a.toNat * b.toNat := by
    rw [hcube, hz0, hz2, ← split_toNat W a, ← split_toNat W b]
    linear_combination 2 ^ W * hmid +
      (split W a).high.toNat * (split W b).high.toNat * two_pow_two_mul W
  have hle : z0.toNat + 2 ^ W * mid.s.toNat + 2 ^ (2 * W) * z2.toNat ≤ a.toNat * b.toNat := Nat.le.intro hsum
  rw [join_recomb_toNat, Bool.toNat_false, Nat.mul_zero, Nat.add_zero, Nat.mod_eq_of_lt (Nat.lt_of_le_of_lt hle hlt), hsum]

/-- Settles O22: the dropped carry is 1 exactly when the sum of the cross products reaches `2^(2W)`. -/
theorem narrowMiddleTermFailsExactlyOnCarry : Obligations.NarrowMiddleTermFailsExactlyOnCarry := by
  rintro W a b m mid narrow z1 hm hmid rfl rfl
  have hmidSum : mid = midSum W (mulN (split W a).low (split W b).high) (mulN (split W a).high (split W b).low) := by
    rw [hmid, hm, midSub_eq_midSum_of_exact mulN_toNat]
  have hcross := midSum_toNat_of_exact mulN_toNat (split W a).low (split W a).high (split W b).low (split W b).high
  rw [← hmidSum] at hcross
  have hproduct := join_recomb_dropped_carry_toNat (mulN_toNat _ _) (mulN_toNat _ _) hcross
  have hs := mid.s.isLt
  rw [high_mul_add_low, ← hcross]
  refine ⟨by rw [hmid, midSub_s], ?_⟩
  cases hk : mid.k with
  | false =>
    simp only [hk, Bool.toNat_false, Nat.mul_zero, Nat.add_zero] at hproduct ⊢
    exact ⟨fun _ => hproduct, fun hle => absurd hs hle.not_gt⟩
  | true =>
    simp only [hk, Bool.toNat_true, Nat.mul_one] at hproduct ⊢
    exact ⟨fun hlt => absurd hlt (Nat.le_add_left _ _).not_gt, fun _ => hproduct⟩

/-- When the cross products sum to `2^(2W)` or more, the sum of the limbs of the one operand carries, for no limb of the
other reaches `2^W` (R189). -/
theorem addW_carry_of_cross_sum {W : Nat} (x0 x1 y0 y1 : BitVec W)
    (h : 2 ^ (2 * W) ≤ x0.toNat * y1.toNat + x1.toNat * y0.toNat) : (addW x0 x1).k = true := by
  rw [addW_carry_iff_le]
  apply Nat.le_of_mul_le_mul_right _ (Nat.two_pow_pos W)
  calc 2 ^ W * 2 ^ W
      = 2 ^ (2 * W) := (two_pow_two_mul W).symm
    _ ≤ x0.toNat * y1.toNat + x1.toNat * y0.toNat := h
    _ ≤ x0.toNat * 2 ^ W + x1.toNat * 2 ^ W :=
      Nat.add_le_add (Nat.mul_le_mul_left _ y1.isLt.le) (Nat.mul_le_mul_left _ y0.isLt.le)
    _ = (x0.toNat + x1.toNat) * 2 ^ W := (Nat.add_mul _ _ _).symm

/-- Settles O23: the carry of the middle term bounds its value from below, and the two sides of the cross products play the
same part; the spec's operands are evaluated. -/
theorem middleCarryNeedsBothSumCarries : Obligations.MiddleCarryNeedsBothSumCarries := by
  refine ⟨fun W a0 a1 b0 b1 hmc => ?_, by decide⟩
  have hcross : 2 ^ (2 * W) ≤ a0.toNat * b1.toNat + a1.toNat * b0.toNat := by
    rwa [midSum, addW_carry_iff_le, mulN_toNat, mulN_toNat] at hmc
  have hswapped : 2 ^ (2 * W) ≤ b0.toNat * a1.toNat + b1.toNat * a0.toNat := by
    rwa [Nat.mul_comm b0.toNat, Nat.mul_comm b1.toNat, Nat.add_comm]
  exact ⟨addW_carry_of_cross_sum a0 a1 b0 b1 hcross, addW_carry_of_cross_sum b0 b1 a0 a1 hswapped⟩

end Sys2Proof.Machine
end
